-- ==== Sys2Proof/Word.lean ====
section
/-! DEFINITION. The word types of the block (10_state.md R10, 20_memory.md R40, R44): 8-bit samples,
16-bit command and geometry fields, 32-bit registers. -/

namespace Sys2Proof

/-- A sample: "an 8-bit unsigned integer in [0,255]" (R40). -/
abbrev Byte := BitVec 8

/-- A 16-bit field: ID, PARAM, W or H (R11, R13). -/
abbrev Half := BitVec 16

/-- A register or a command word (R44, R60). -/
abbrev Word := BitVec 32

end Sys2Proof
end

