-- ==== Sys2Proof/Syntax.lean ====
section
/-! DEFINITION. The commands: one constructor for each row of spec/opcode_table.json
(30_encoding.md R63). Every command word carries the 16-bit PARAM field (R61); what it means depends
on the identifier (R64, R65, R67), and CMD holds it whole whatever it means (R11). -/

namespace Sys2Proof

/-- A command: its row of the opcode table and its PARAM field. -/
inductive Instr where
  /-- 0x0001 HISTEQ (R100); PARAM is ignored (R67). -/
  | histeq (param : Half)
  /-- 0x0003 GAMMA (R110); PARAM is g in signed Q7.8 (R64). -/
  | gamma (g : Half)
  /-- 0x0006 GBLUR (R120); PARAM is the kernel size k (R65). -/
  | gblur (k : Half)
  /-- 0x000A SOBEL (R140); PARAM is ignored (R67). -/
  | sobel (param : Half)
  /-- 0x0010 TOGRAY (R80); PARAM is ignored (R67). -/
  | togray (param : Half)
  /-- 0x0011 GRAY2COLOR (R86); PARAM is ignored (R67). -/
  | gray2color (param : Half)
  /-- 0x0002 CSTRETCH, reserved (R66). -/
  | cstretch (param : Half)
  /-- 0x0004 LOGT, reserved (R66). -/
  | logt (param : Half)
  /-- 0x0005 NEGATIVE, reserved (R66). -/
  | negative (param : Half)
  /-- 0x0007 SHARPEN, reserved (R66). -/
  | sharpen (param : Half)
  /-- 0x0008 CARTOON, reserved (R66). -/
  | cartoon (param : Half)
  /-- 0x0009 WATERCOLOR, reserved (R66). -/
  | watercolor (param : Half)
  deriving DecidableEq, Repr

end Sys2Proof
end

