-- ==== Sys2Proof/WellFormed.lean ====
section
/-! DEFINITION. Which commands are well formed: the two checks of 60_exceptions.md R161 that look at
the command word alone (identifier, then parameter). The buffer check needs the geometry and stands
with the launch (Machine/Ops.lean `validate`). Decoding and encoding are total and need none of
these checks: an ill-formed command runs too, its launch is refused with the error named here. -/

namespace Sys2Proof

namespace Instr

/-- R161 check 1: the block implements the identifier (R63, column "status in this block"). -/
def implemented : Instr → Bool
  | histeq _ => true
  | gamma _ => true
  | gblur _ => true
  | sobel _ => true
  | togray _ => true
  | gray2color _ => true
  | cstretch _ => false
  | logt _ => false
  | negative _ => false
  | sharpen _ => false
  | cartoon _ => false
  | watercolor _ => false

/-- R64: "g ≥ 1 is legal and g ≤ 0 (PARAM = 0x0000, or any PARAM with bit 15 set) is refused". -/
def gammaLegal (g : Half) : Bool := decide (0 < g.toInt)

/-- R65: "Legal values are the ten odd numbers 3, 5, 7, 9, 11, 13, 15, 17, 19, 21". -/
def kernelSizes : List Nat := [3, 5, 7, 9, 11, 13, 15, 17, 19, 21]

/-- R65: the kernel size is one of the ten. -/
def kernelLegal (k : Half) : Bool := kernelSizes.contains k.toNat

/-- R161 check 2: a command with a required parameter has it in its domain. -/
def paramLegal : Instr → Bool
  | gamma g => gammaLegal g
  | gblur k => kernelLegal k
  | histeq _ => true
  | sobel _ => true
  | togray _ => true
  | gray2color _ => true
  | cstretch _ => true
  | logt _ => true
  | negative _ => true
  | sharpen _ => true
  | cartoon _ => true
  | watercolor _ => true

/-- The command passes both checks of R161 that concern the command word alone. -/
def wellFormed (i : Instr) : Bool := i.implemented && i.paramLegal

end Instr

end Sys2Proof
end

