-- ==== Sys2Proof/Decode.lean ====
section
/-! DEFINITION. Command words (30_encoding.md R60, R61, R63, R66, R68): the fields, the decoder, and
the encoder written from the same table. A command is one 32-bit word, moved whole, so no byte order
is visible (20_memory.md R44). -/

namespace Sys2Proof

/-- ID, bits 15:0 of the command word (R61). -/
def idField (w : Word) : Half := w.extractLsb' 0 16

/-- PARAM, bits 31:16 of the command word (R61). -/
def paramField (w : Word) : Half := w.extractLsb' 16 16

/-- The word `{param, id}` (R61). -/
def commandWord (param id : Half) : Word := param ++ id

/-- Why a word is no row of the opcode table. -/
inductive DecodeRefusal where
  /-- R66: the identifier is unassigned (0x0000, 0x000B to 0x000F, 0x0012 to 0xFFFF). A launch of
  such a word raises UnknownFilter (R162). -/
  | unassigned (id : Half)
  deriving DecidableEq, Repr

/-- R68, R63: the row of the opcode table whose 16 ID bits the word has. The decoder knows the six
reserved rows by name (log 20); R68's `Unknown` is a reserved row or a refusal here, and both
launch alike. -/
def decode (w : Word) : Except DecodeRefusal Instr :=
  let id := idField w
  let param := paramField w
  if id = 0x0001 then .ok (.histeq param)
  else if id = 0x0002 then .ok (.cstretch param)
  else if id = 0x0003 then .ok (.gamma param)
  else if id = 0x0004 then .ok (.logt param)
  else if id = 0x0005 then .ok (.negative param)
  else if id = 0x0006 then .ok (.gblur param)
  else if id = 0x0007 then .ok (.sharpen param)
  else if id = 0x0008 then .ok (.cartoon param)
  else if id = 0x0009 then .ok (.watercolor param)
  else if id = 0x000A then .ok (.sobel param)
  else if id = 0x0010 then .ok (.togray param)
  else if id = 0x0011 then .ok (.gray2color param)
  else .error (.unassigned id)

/-- The identifier of a command, its code point in the table of R63. -/
def Instr.id : Instr → Half
  | .histeq _ => 0x0001
  | .cstretch _ => 0x0002
  | .gamma _ => 0x0003
  | .logt _ => 0x0004
  | .negative _ => 0x0005
  | .gblur _ => 0x0006
  | .sharpen _ => 0x0007
  | .cartoon _ => 0x0008
  | .watercolor _ => 0x0009
  | .sobel _ => 0x000A
  | .togray _ => 0x0010
  | .gray2color _ => 0x0011

/-- The PARAM field of a command (R61). -/
def Instr.param : Instr → Half
  | .histeq p => p
  | .cstretch p => p
  | .gamma p => p
  | .logt p => p
  | .negative p => p
  | .gblur p => p
  | .sharpen p => p
  | .cartoon p => p
  | .watercolor p => p
  | .sobel p => p
  | .togray p => p
  | .gray2color p => p

/-- The command word of a command (R61, R63). -/
def encode (i : Instr) : Word := commandWord i.param i.id

/-- The 32-bit command word of an opcode-table row whose `nbits` bits are `w`, bit 0 the least
significant, the bits above `nbits` zero. -/
def tableWord (nbits w : Nat) : Word := BitVec.ofNat 32 (w % 2 ^ nbits)

/-- The command the decoder reads from an opcode-table word. -/
def decodeTableWord (nbits w : Nat) : Option Instr :=
  match decode (tableWord nbits w) with
  | .ok i => some i
  | .error _ => none

end Sys2Proof
end

