-- ==== Sys2Proof/Config.lean ====
section
/-! DEFINITION. What the spec leaves to the implementation: the suggested capacity, and the free
values (constants without a body, so that nothing can be proved of their values). -/

namespace Sys2Proof

/-- The three sample stores (10_state.md R16 to R18). -/
inductive StoreName where
  | src
  | dst
  | lut
  deriving DecidableEq, Repr

namespace Config

/-- R5 (00_scope.md): CAP is OPEN; "A suggested default for tests is 3·2^20". DESIGN CHOICE (log 4):
only `State.reset` uses it; every statement holds for every value of the field `State.cap`. -/
def suggestedCap : Nat := 3 * 2 ^ 20

/-- FREE VALUE (log 5). What entry `index` of a store holds after the reset number `epoch`, until it
is written: "a fresh draw per entry at reset; stable afterwards until written" (R25, U15). -/
opaque resetSample (store : StoreName) (epoch index : Nat) : Byte

/-- FREE VALUE (log 6). L.ID after reset: "unspecified" (R25). -/
opaque resetLatchId (epoch : Nat) : Half

/-- FREE VALUE (log 6). L.PARAM after reset: "unspecified" (R25). -/
opaque resetLatchParam (epoch : Nat) : Half

/-- FREE VALUE (log 6). L.W after reset: "unspecified" (R25). -/
opaque resetLatchW (epoch : Nat) : Half

/-- FREE VALUE (log 6). L.H after reset: "unspecified" (R25). -/
opaque resetLatchH (epoch : Nat) : Half

/-- FREE VALUE (log 6). L.C after reset: "unspecified" (R25). -/
opaque resetLatchC (epoch : Nat) : BitVec 2

/-- FREE VALUE (log 8). The value of a register read at a reserved offset (R26), one for each draw. -/
opaque readWord (draw : Nat) : Word

/-- FREE VALUE (log 8). The value of a sample read that the spec leaves unspecified (R18, R43, R197),
one for each draw. -/
opaque readSample (draw : Nat) : Byte

/-- FREE VALUE (log 9). What a completing command stores at `index` of DST or LUT when the host wrote
its input while it ran (R196): "any value", one for each completion and entry. -/
opaque hazardSample (store : StoreName) (draw index : Nat) : Byte

end Config

end Sys2Proof
end

