-- ==== Sys2Proof/Machine/State.lean ====
section
/-! DEFINITION. The state of the block as plain data (10_state.md R10), the model's own fields beside
it (INVENTORY.md '## State'), the reasons a step can stop, and the state after reset (R25, R190). -/

namespace Sys2Proof.Machine

/-- A sample store: (index, sample) pairs with strictly rising indices (`Memory.wf`). An index that is
not listed has not been written since the last reset and reads as its reset draw (log 5). -/
abbrev Memory := List Host.Cell

/-- The launch latch L (R20): the command and the geometry as they were at the launch. -/
structure Latch where
  /-- L.ID -/
  id : Half
  /-- L.PARAM -/
  param : Half
  /-- L.W -/
  w : Half
  /-- L.H -/
  h : Half
  /-- L.C -/
  c : BitVec 2
  deriving DecidableEq, Repr

/-- The two agents of R7. -/
inductive Agent where
  | host
  | engine
  deriving DecidableEq, Repr

/-- One access of the host (10_state.md R28, 20_memory.md R43, R44; textual forms in R69). -/
inductive HostAccess where
  /-- WR: a 32-bit write at a byte offset of the register window. -/
  | writeReg (offset : Nat) (value : Word)
  /-- RD: a 32-bit read at a byte offset of the register window. -/
  | readReg (offset : Nat)
  /-- A write of `bytes` bytes, other than 4, to the register window (R44). -/
  | narrowWrite (offset bytes : Nat) (value : Word)
  /-- A read of `bytes` bytes, other than 4, of the register window (R44). -/
  | narrowRead (offset bytes : Nat)
  /-- WRS: write one sample of SRC. -/
  | writeSrc (index : Nat) (value : Byte)
  /-- Read one sample of SRC. -/
  | readSrc (index : Nat)
  /-- A write of DST (ignored, R17). -/
  | writeDst (index : Nat) (value : Byte)
  /-- RDD: read one sample of DST. -/
  | readDst (index : Nat)
  /-- A write of LUT (ignored, R18). -/
  | writeLut (index : Nat) (value : Byte)
  /-- RDL: read one entry of LUT. -/
  | readLut (index : Nat)
  deriving DecidableEq, Repr

/-- One entry of the schedule: whose move it is, and which (log 1). -/
inductive Event where
  /-- The host performs one access. -/
  | access (a : HostAccess)
  /-- The pseudo-command WAIT (R69): the host reads STATUS until STATE ≠ BUSY. `polls` is the number
  of reads that still return BUSY before the engine moves (log 17). -/
  | wait (polls : Nat)
  /-- The engine takes its step, if it is enabled (R171). -/
  | engine
  /-- Reset is asserted (R190). -/
  | reset
  deriving DecidableEq, Repr

/-- What a host read returned. -/
inductive Reply where
  | word (value : Word)
  | sample (value : Byte)
  deriving DecidableEq, Repr

/-- The machine's state. -/
structure State where
  /-- CMD (R11): ID 15:0, PARAM 31:16. -/
  cmd : Word
  /-- STATUS (R12): STATE 1:0, ERR 5:4. -/
  status : Word
  /-- IMG_DIM (R13): W 15:0, H 31:16. -/
  imgDim : Word
  /-- IMG_FMT (R14): C 1:0. -/
  imgFmt : Word
  /-- OUT_FMT (R15): OUT_C 1:0, LUT_VALID 8. -/
  outFmt : Word
  /-- The launch latch L (R20). -/
  latch : Latch
  /-- SRC, the input frame store (R16). -/
  src : Memory
  /-- DST, the output frame store (R17). -/
  dst : Memory
  /-- LUT, the look-up table (R18). -/
  lut : Memory
  /-- MODEL: the OPEN parameter CAP (R5, R27), which no step changes (log 4). -/
  cap : Nat
  /-- MODEL: the agent whose move the current step is (log 2). -/
  turn : Agent
  /-- MODEL: the moves still to come, the next one first (log 1). -/
  schedule : List Event
  /-- MODEL: what the host's reads returned, newest first (log 16). -/
  replies : List Reply
  /-- MODEL: the host wrote an SRC entry of the running command's input since its launch (R196,
  log 9). -/
  srcHazard : Bool
  /-- MODEL: the number of the draw at the last reset (log 7). -/
  epoch : Nat
  /-- MODEL: how many free values have been drawn (log 7). -/
  draws : Nat
  deriving DecidableEq, Repr

/-- The faults. There is none: "No behaviour of this block is `stuck`" and "No behaviour is `fault`
other than the three error kinds of 60_exceptions.md" (93_implementation_defined.md section 1), and
those three are next states in which STATUS records the error (R165). The type has no constructor, so
that no step can fault (log 22; safe). -/
inductive Fault : Type
  deriving DecidableEq, Repr

/-- The refusals: moves to which the model gives no meaning. -/
inductive Refusal where
  /-- Raised by an arm of `exec` whose command has no meaning yet. Safe: the machine stops. No arm
  raises it. -/
  | notModelled (mnemonic : String)
  /-- Raised by `hostAccess` for a register access that is not a whole, naturally aligned 32-bit word:
  it "has unspecified effect and a model should refuse it" (R44, U14; log 10). Safe: the machine
  stops. -/
  | registerAccessNotWholeWord
  deriving DecidableEq, Repr

/-- R25: the latch after the reset number `epoch` is unspecified, "a free draw" (log 6). -/
def Latch.afterReset (epoch : Nat) : Latch :=
  { id := Config.resetLatchId epoch
    param := Config.resetLatchParam epoch
    w := Config.resetLatchW epoch
    h := Config.resetLatchH epoch
    c := Config.resetLatchC epoch }

/-- The state right after reset (R25, R190): the five registers zero; the latch, SRC, DST and LUT
unspecified (logs 5, 6); nothing scheduled, nothing read yet (log 3). -/
def State.reset : State :=
  { cmd := 0
    status := 0
    imgDim := 0
    imgFmt := 0
    outFmt := 0
    latch := Latch.afterReset 0
    src := []
    dst := []
    lut := []
    cap := Config.suggestedCap
    turn := .host
    schedule := []
    replies := []
    srcHazard := false
    epoch := 0
    draws := 1 }

end Sys2Proof.Machine
end

