-- ==== Sys2Proof/Machine/Flags.lean ====
section
/-! DEFINITION. The block has "no arithmetic flags, condition codes or predicates" (10_state.md R24):
"The only status a command leaves is STATUS.STATE, STATUS.ERR, OUT_FMT.OUT_C and OUT_FMT.LUT_VALID".
This file holds the fields of the registers, each with its read and, where something writes it, its
write, which keeps every other bit. -/

namespace Sys2Proof.Machine

/-- STATUS.STATE = IDLE: no command since reset (R12). -/
abbrev stateIdle : BitVec 2 := 0
/-- STATUS.STATE = BUSY: a command is latched and has not completed (R12). -/
abbrev stateBusy : BitVec 2 := 1
/-- STATUS.STATE = DONE: the last command succeeded (R12). -/
abbrev stateDone : BitVec 2 := 2
/-- STATUS.STATE = ERROR: the last launch was refused (R12). -/
abbrev stateError : BitVec 2 := 3

/-- STATE, bits 1:0 of STATUS (R12). -/
def stateField (status : Word) : BitVec 2 := status.extractLsb' 0 2

/-- ERR, bits 5:4 of STATUS (R12). -/
def errField (status : Word) : BitVec 2 := status.extractLsb' 4 2

/-- `STATUS.STATE <- v`. -/
def setStateField (status : Word) (v : BitVec 2) : Word :=
  status.extractLsb' 2 30 ++ v

/-- `STATUS.ERR <- v`. -/
def setErrField (status : Word) (v : BitVec 2) : Word :=
  status.extractLsb' 6 26 ++ v ++ status.extractLsb' 0 4

/-- OUT_C, bits 1:0 of OUT_FMT (R15). -/
def outCField (outFmt : Word) : BitVec 2 := outFmt.extractLsb' 0 2

/-- LUT_VALID, bit 8 of OUT_FMT (R15). -/
def lutValidField (outFmt : Word) : Bool := outFmt.getLsbD 8

/-- `OUT_FMT.OUT_C <- v`. -/
def setOutCField (outFmt : Word) (v : BitVec 2) : Word :=
  outFmt.extractLsb' 2 30 ++ v

/-- `OUT_FMT.LUT_VALID <- 1`; nothing but reset clears it (R15). -/
def setLutValidField (outFmt : Word) : Word :=
  outFmt.extractLsb' 9 23 ++ (1 : BitVec 1) ++ outFmt.extractLsb' 0 8

/-- W, bits 15:0 of IMG_DIM (R13). -/
def widthField (imgDim : Word) : Half := imgDim.extractLsb' 0 16

/-- H, bits 31:16 of IMG_DIM (R13). -/
def heightField (imgDim : Word) : Half := imgDim.extractLsb' 16 16

/-- C, bits 1:0 of IMG_FMT (R14). -/
def channelsField (imgFmt : Word) : BitVec 2 := imgFmt.extractLsb' 0 2

/-- The word a host write of IMG_FMT stores: "`IMG_FMT[31:2]` reserved (read zero, writes ignored)"
(R14). -/
def imgFmtStored (value : Word) : Word := (channelsField value).setWidth 32

/-- The error kinds a launch can raise (60_exceptions.md, the table of section 2). -/
inductive ErrorKind where
  /-- R164, code 1. -/
  | invalidBuffer
  /-- R162, code 2. -/
  | unknownFilter
  /-- R163, code 3. -/
  | invalidParameter
  deriving DecidableEq, Repr

/-- `code(E)`, the value of STATUS.ERR (R12). -/
def ErrorKind.code : ErrorKind → BitVec 2
  | .invalidBuffer => 1
  | .unknownFilter => 2
  | .invalidParameter => 3

/-- STATUS.STATE of the state. -/
def State.phase (s : State) : BitVec 2 := stateField s.status

/-- `STATUS.STATE = BUSY`. -/
def State.busy (s : State) : Bool := s.phase == stateBusy

end Sys2Proof.Machine
end

