-- ==== Sys2Proof/Machine/Operands.lean ====
section
/-! DEFINITION. The arithmetic every command uses: addresses and the border fold (20_memory.md R42,
R47), rounding and clamping (41_clamping_saturator.md R90, R91, R96), the integer square root (R144),
and the walks over an image. Every quantity is an exact integer (00_scope.md R6). -/

namespace Sys2Proof.Machine

/-- `sext_16`: a PARAM field as a two's complement number (R64). -/
def sext16 (v : Half) : Int := v.toInt

/-- R65: the ten kernel sizes of GBLUR. -/
def legalKernelSizes : List Nat := [3, 5, 7, 9, 11, 13, 15, 17, 19, 21]

/-- R42: the address of channel `c` of the pixel in row `y`, column `x`, in an image of width `w` with
`chans` channels. -/
def idx (w chans y x c : Nat) : Nat := (y * w + x) * chans + c

/-- R47: the border fold, reflection with the edge pixel repeated. -/
def refl (i : Int) (n : Nat) : Nat :=
  let p := 2 * n
  let j := (i % (p : Int)).toNat
  if j < n then j else p - 1 - j

/-- R90: division rounded to nearest, ties toward +∞ (`/` is floor division for d > 0). -/
def rndDiv (n : Int) (d : Nat) : Int := (2 * n + d) / (2 * d)

/-- R91: the clamping saturator. -/
def sat8 (v : Int) : Byte :=
  if v < 0 then 0 else if 255 < v then 255 else BitVec.ofNat 8 v.toNat

/-- R96: rounding by shift, `(a + 2^(n-1)) >> n`. -/
def roundShift (a n : Nat) : Nat := (a + 2 ^ (n - 1)) >>> n

/-- The greatest `m < 2^bits + root` of the form `root + ...` with `m * m ≤ n`, tried one bit at a
time from the highest. -/
def isqrtBits (n : Nat) : Nat → Nat → Nat
  | 0, root => root
  | bits + 1, root =>
    let trial := root + 2 ^ bits
    if trial * trial ≤ n then isqrtBits n bits trial else isqrtBits n bits root

/-- R144: `isqrt(n)`, the largest m with m·m ≤ n. -/
def isqrt (n : Nat) : Nat := isqrtBits n (n.log2 / 2 + 1) 0

/-- The largest `m ≤ bound` with `p m`, and 0 if there is none (the search of R111). -/
def largestUpTo (p : Nat → Bool) : Nat → Nat
  | 0 => 0
  | m + 1 => if p (m + 1) then m + 1 else largestUpTo p m

/-- "for all y, x": the (row, column) pairs of an image, in row-major order (R41). -/
def pixels (h w : Nat) : List (Nat × Nat) :=
  (List.range h).flatMap fun y => (List.range w).map fun x => (y, x)

/-- "for all y, x, and for c in 0 .. chans − 1", in store order. -/
def samples (h w chans : Nat) : List (Nat × Nat × Nat) :=
  (pixels h w).flatMap fun yx => (List.range chans).map fun c => (yx.1, yx.2, c)

/-- `Σ_{j = 0 .. k−1} f j`. -/
def sumTaps (k : Nat) (f : Nat → Nat) : Nat := ((List.range k).map f).sum

/-- The smallest entry of a list (0 of the empty list, which no image gives). -/
def listMin : List Nat → Nat
  | [] => 0
  | m :: ms => ms.foldl min m

/-- The largest entry of a list (0 of the empty list). -/
def listMax (ms : List Nat) : Nat := ms.foldl max 0

end Sys2Proof.Machine
end

