-- ==== Sys2Proof/Machine/Ops.lean ====
section
/-! DEFINITION. The named operations over the state: the sample stores, validation, the launch step
(60_exceptions.md R170) with its error entry (R165), what every completion step writes (R171), reset
(R190), and the two-step execution that every command goes through. -/

namespace Sys2Proof.Machine

/-! ### Sample stores -/

/-- The sample listed at an index, if one is. -/
def Memory.lookup : Memory → Nat → Option Byte
  | [], _ => none
  | (k, v) :: m, a => if a = k then some v else Memory.lookup m a

/-- Write one sample, keeping the indices strictly rising. -/
def Memory.write : Memory → Nat → Byte → Memory
  | [], a, v => [(a, v)]
  | (k, u) :: m, a, v =>
    if a < k then (a, v) :: (k, u) :: m
    else if a = k then (a, v) :: m
    else (k, u) :: Memory.write m a v

/-- Every listed index is above `lo`, and they rise strictly. -/
def Memory.risesFrom : Nat → Memory → Bool
  | _, [] => true
  | lo, (k, _) :: m => decide (lo < k) && Memory.risesFrom k m

/-- The canonical form: strictly rising indices. (An unlisted index holds a free value, which no
listed byte can be compared with, so there is no entry to leave out; log 5.) -/
def Memory.wf : Memory → Bool
  | [] => true
  | (k, _) :: m => Memory.risesFrom k m

/-- Every listed index is below `bound`. -/
def Memory.below (m : Memory) (bound : Nat) : Bool := m.all fun cell => decide (cell.1 < bound)

/-- What entry `a` of a store holds: the last sample written since the reset number `epoch`, else the
draw made at that reset (R25, U15; log 5). -/
def Memory.read (m : Memory) (store : StoreName) (epoch a : Nat) : Byte :=
  (m.lookup a).getD (Config.resetSample store epoch a)

/-- `SRC[a]` (R16). -/
def State.srcAt (s : State) (a : Nat) : Byte := s.src.read .src s.epoch a

/-- `DST[a]` (R17). -/
def State.dstAt (s : State) (a : Nat) : Byte := s.dst.read .dst s.epoch a

/-- `LUT[i]` (R18). -/
def State.lutAt (s : State) (i : Nat) : Byte := s.lut.read .lut s.epoch i

/-! ### The latch -/

/-- L.W as a number. -/
def State.width (s : State) : Nat := s.latch.w.toNat

/-- L.H as a number. -/
def State.height (s : State) : Nat := s.latch.h.toNat

/-- L.C as a number. -/
def State.chans (s : State) : Nat := s.latch.c.toNat

/-- `{L.PARAM, L.ID}`, the command the latch holds (R171). -/
def Latch.word (l : Latch) : Word := commandWord l.param l.id

/-- How many samples the latched input image has, L.W·L.H·L.C (R16). -/
def State.inputSamples (s : State) : Nat := s.width * s.height * s.chans

/-- R20: what the launch latches, "taken from the register values as they are just after the CMD
write". -/
def latchOf (word : Word) (s : State) : Latch :=
  { id := idField word
    param := paramField word
    w := widthField s.imgDim
    h := heightField s.imgDim
    c := channelsField s.imgFmt }

/-! ### Validation -/

/-- R161 check 1: the identifiers the block implements. -/
def implementedIds : List Half := [0x0001, 0x0003, 0x0006, 0x000A, 0x0010, 0x0011]

/-- R161 check 3 (R164): the latched geometry describes a buffer the command can take. -/
def bufferLegal (cap : Nat) (l : Latch) : Bool :=
  if l.w = 0 ∨ l.h = 0 then false
  else if l.id = 0x0011 then
    decide (l.c = 1) && decide (3 * (l.w.toNat * l.h.toNat) ≤ cap)
  else
    (decide (l.c = 1) || decide (l.c = 3)) && decide (l.w.toNat * l.h.toNat * l.c.toNat ≤ cap)

/-- R161: the first failing check, "a pure function of the latch". -/
def validate (cap : Nat) (l : Latch) : Option ErrorKind :=
  if !implementedIds.contains l.id then some .unknownFilter
  else if l.id = 0x0003 ∧ sext16 l.param ≤ 0 then some .invalidParameter
  else if l.id = 0x0006 ∧ !legalKernelSizes.contains l.param.toNat then some .invalidParameter
  else if !bufferLegal cap l then some .invalidBuffer
  else none

/-! ### The launch step -/

/-- R165, `raise E`: "The refused launch writes STATUS.ERR <- code(E) and STATUS.STATE <- ERROR". This
is the only way the block takes an error. -/
def raiseError (e : ErrorKind) (s : State) : State :=
  { s with status := setStateField (setErrField s.status e.code) stateError }

/-- R170, the accepted launch: ERR <- 0, STATE <- BUSY. It is also the return from an error: "that
launch overwrites STATUS" (R172). No SRC write has disturbed the new command yet (R196). -/
def acceptLaunch (s : State) : State :=
  { s with
    status := setStateField (setErrField s.status 0) stateBusy
    srcHazard := false }

/-- The first lines of R170: `CMD <- w`, the latch (R20), and `OUT_FMT.OUT_C <- 0`, "the old result is
no longer announced". -/
def latchCommand (word : Word) (s : State) : State :=
  { s with
    cmd := word
    latch := latchOf word s
    outFmt := setOutCField s.outFmt 0 }

/-- R170 from `CMD <- w` on: store and latch, then validate, and raise or accept. -/
def launch (word : Word) (s : State) : State :=
  match validate s.cap (latchOf word s) with
  | none => acceptLaunch (latchCommand word s)
  | some e => raiseError e (latchCommand word s)

/-- R170, R11: the whole effect of a host write of CMD; while BUSY it is dropped. -/
def commandWrite (word : Word) (s : State) : State :=
  if s.busy then s else launch word s

/-! ### The completion step -/

/-- The value a completing command stores at entry `a` of a store: `v`, or, when the host wrote its
input while it ran, any value (R196, U17; log 9). -/
def State.settled (s : State) (store : StoreName) (a : Nat) (v : Byte) : Byte :=
  if s.srcHazard then Config.hazardSample store s.draws a else v

/-- Write `f y x c` to entry `idx(w, chans, y, x, c)` for all y, x, c. -/
def storeImage (w h chans : Nat) (f : Nat → Nat → Nat → Byte) (m : Memory) : Memory :=
  (samples h w chans).foldr (fun p m => m.write (idx w chans p.1 p.2.1 p.2.2) (f p.1 p.2.1 p.2.2)) m

/-- Write `f i` to entry `i` for all i in 0..255. -/
def storeTable (f : Nat → Byte) (m : Memory) : Memory :=
  (List.range 256).foldr (fun i m => m.write i (f i)) m

/-- The end of every completion step (R171): DST[0 .. L.W·L.H·C_out − 1], `OUT_FMT.OUT_C <- C_out`,
`STATUS.STATE <- DONE`, as one indivisible step (R51). -/
def deliver (cOut : BitVec 2) (f : Nat → Nat → Nat → Byte) (s : State) : State :=
  let w := s.width
  { s with
    dst := storeImage w s.height cOut.toNat
      (fun y x c => s.settled .dst (idx w cOut.toNat y x c) (f y x c)) s.dst
    outFmt := setOutCField s.outFmt cOut
    status := setStateField s.status stateDone
    srcHazard := false
    draws := if s.srcHazard then s.draws + 1 else s.draws }

/-- All 256 LUT entries, and `OUT_FMT.LUT_VALID <- 1` (R18). -/
def publishTable (f : Nat → Byte) (s : State) : State :=
  { s with
    lut := storeTable f s.lut
    outFmt := setLutValidField s.outFmt }

/-! ### A command's two steps -/

/-- A command is executed in two indivisible steps, sequenced by STATUS.STATE alone (R23): on the
host's move it is launched (R170); on the engine's move, if it is the command the latch holds and
STATE = BUSY, it is completed (R171). Otherwise the step does nothing (logs 2, 11). -/
def runCommand (word : Word) (completion : State → State) (s : State) :
    Host.Outcome State Fault Refusal :=
  match s.turn with
  | .host => .next (commandWrite word s)
  | .engine => .next (if s.busy && s.latch.word == word then completion s else s)

/-- A reserved command has a launch and no completion: "nothing is computed" (30_encoding.md R66). -/
def runReserved (word : Word) (s : State) : Host.Outcome State Fault Refusal :=
  match s.turn with
  | .host => .next (commandWrite word s)
  | .engine => .next s

/-! ### Reset -/

/-- R190, R191: reset in any state. Every register takes its reset value; the latch and the stores
are drawn afresh (logs 5, 6). The model's own fields keep their values, except that the draw counter
moves on and nothing is running that SRC could have been written under. -/
def assertReset (s : State) : State :=
  { s with
    cmd := 0
    status := 0
    imgDim := 0
    imgFmt := 0
    outFmt := 0
    latch := Latch.afterReset s.draws
    src := []
    dst := []
    lut := []
    srcHazard := false
    epoch := s.draws
    draws := s.draws + 1 }

end Sys2Proof.Machine
end

