-- ==== Sys2Proof/Machine/Grayscale.lean ====
section
/-! DEFINITION. The color_to_grayscale_matrix unit (40_color_to_grayscale.md): luma, the gray plane
and the expansion that HISTEQ, GAMMA and SOBEL share, and the commands TOGRAY and GRAY2COLOR. -/

namespace Sys2Proof.Machine

/-- R82: the weight of B, 0.114 in Q0.14. -/
def weightB : Nat := 1868
/-- R82: the weight of G, 0.587 in Q0.14. -/
def weightG : Nat := 9617
/-- R82: the weight of R, 0.299 in Q0.14. -/
def weightR : Nat := 4899

/-- R83: the luma of one pixel. -/
def luma (b g r : Byte) : Byte :=
  sat8 (roundShift (weightB * b.toNat + weightG * g.toNat + weightR * r.toNat) 14 : Nat)

/-- R85: the gray plane G(y, x) of the latched input image. (R85 names L.C = 1 and L.C = 3; no other
L.C passes validation, log 12.) -/
def State.gray (s : State) (y x : Nat) : Byte :=
  if s.latch.c = 1 then s.srcAt (idx s.width 1 y x 0)
  else
    luma (s.srcAt (idx s.width 3 y x 0)) (s.srcAt (idx s.width 3 y x 1))
      (s.srcAt (idx s.width 3 y x 2))

/-- The values of the gray plane in row-major order, for the whole-image reductions (R52). -/
def State.grayPlane (s : State) : List Byte :=
  (pixels s.height s.width).map fun yx => s.gray yx.1 yx.2

/-- R88: `expand(E)` and the end of the command, with the input's channel count. -/
def expand (e : Nat → Nat → Byte) (s : State) : State :=
  deliver s.latch.c (fun y x _ => e y x) s

/-- R80: the completion step of TOGRAY. -/
def completeTogray (s : State) : State := deliver 1 (fun y x _ => s.gray y x) s

/-- R86: the completion step of GRAY2COLOR. -/
def completeGray2color (s : State) : State :=
  deliver 3 (fun y x _ => s.srcAt (idx s.width 1 y x 0)) s

/-- TOGRAY (R80). -/
def execTogray (param : Half) (s : State) : Host.Outcome State Fault Refusal :=
  runCommand (encode (.togray param)) completeTogray s

/-- GRAY2COLOR (R86). -/
def execGray2color (param : Half) (s : State) : Host.Outcome State Fault Refusal :=
  runCommand (encode (.gray2color param)) completeGray2color s

end Sys2Proof.Machine
end

