-- ==== Sys2Proof/Machine/Gamma.lean ====
section
/-! DEFINITION. The gamma_correction_lut unit and GAMMA (43_gamma_correction_lut.md). -/

namespace Sys2Proof.Machine

/-- R111: the normative, computable form of the table entry, the largest m in 0..255 with m = 0 or
`(2·m − 1)^256 · 255^g ≤ 510^256 · i^g`. -/
def gammaEntry (i g : Nat) : Byte :=
  let scale := 255 ^ g
  let target := 510 ^ 256 * i ^ g
  sat8 (largestUpTo (fun m => decide ((2 * m - 1) ^ 256 * scale ≤ target)) 255 : Nat)

/-- g of the latched command: `sext_16(L.PARAM)`, at least 1 for every command that validation lets
through (R64, R161). -/
def State.gammaParam (s : State) : Nat := (sext16 s.latch.param).toNat

/-- R110, R112: the completion step of GAMMA. -/
def completeGamma (s : State) : State :=
  expand (fun y x => gammaEntry (s.gray y x).toNat s.gammaParam)
    (publishTable (fun i => gammaEntry i s.gammaParam) s)

/-- GAMMA (R110). -/
def execGamma (g : Half) (s : State) : Host.Outcome State Fault Refusal :=
  runCommand (encode (.gamma g)) completeGamma s

end Sys2Proof.Machine
end

