-- ==== Sys2Proof/Machine/Gblur.lean ====
section
/-! DEFINITION. The gaussian_blur_kernel unit and GBLUR (44_gaussian_blur_kernel.md). -/

namespace Sys2Proof.Machine

/-- R122: the row of KROM for kernel size k (10_state.md R19: a constant table). -/
def kromRow (k : Nat) : List Nat :=
  match k with
  | 3 => [15663, 34210, 15663]
  | 5 => [4638, 16021, 24218, 16021, 4638]
  | 7 => [1900, 6804, 14626, 18876, 14626, 6804, 1900]
  | 9 => [973, 3265, 7754, 13030, 15492, 13030, 7754, 3265, 973]
  | 11 => [578, 1779, 4267, 7972, 11600, 13144, 11600, 7972, 4267, 1779, 578]
  | 13 =>
    [380, 1075, 2516, 4877, 7823, 10388, 11418, 10388, 7823, 4877, 2516, 1075, 380]
  | 15 =>
    [269, 704, 1588, 3091, 5187, 7508, 9374, 10094, 9374, 7508, 5187, 3091, 1588, 704, 269]
  | 17 =>
    [201, 491, 1064, 2046, 3494, 5297, 7130, 8523, 9044, 8523, 7130, 5297, 3494, 2046, 1064, 491,
      201]
  | 19 =>
    [157, 360, 749, 1413, 2417, 3751, 5280, 6740, 7803, 8196, 7803, 6740, 5280, 3751, 2417, 1413,
      749, 360, 157]
  | 21 =>
    [126, 275, 550, 1014, 1723, 2700, 3898, 5187, 6361, 7190, 7488, 7190, 6361, 5187, 3898, 2700,
      1723, 1014, 550, 275, 126]
  | _ => []

/-- `KROM[k][j]`. -/
def krom (k j : Nat) : Nat := (kromRow k).getD j 0

/-- The coordinate that tap j of a k-tap kernel centred at `i` fetches: `i + t` with `t = j − r`,
folded into 0..n−1 (R47, R124). -/
def tapCoord (k j i n : Nat) : Nat := refl ((i : Int) + j - ((k - 1) / 2 : Nat)) n

/-- The kernel size of the latched command, `k = zext_16(L.PARAM)` (R65). -/
def State.kernelSize (s : State) : Nat := s.latch.param.toNat

/-- R124: the horizontal pass, `HB(y, x, c)`, not rounded. -/
def State.blurH (s : State) (y x c : Nat) : Nat :=
  sumTaps s.kernelSize fun j =>
    krom s.kernelSize j *
      (s.srcAt (idx s.width s.chans y (tapCoord s.kernelSize j x s.width) c)).toNat

/-- R125: the vertical pass, `V(y, x, c)`, exact in Q8.32. -/
def State.blurV (s : State) (y x c : Nat) : Nat :=
  sumTaps s.kernelSize fun j =>
    krom s.kernelSize j * s.blurH (tapCoord s.kernelSize j y s.height) x c

/-- R125: the blurred sample, the one rounding. -/
def State.blurred (s : State) (y x c : Nat) : Byte := sat8 (roundShift (s.blurV y x c) 32 : Nat)

/-- R120: the completion step of GBLUR. -/
def completeGblur (s : State) : State := deliver s.latch.c s.blurred s

/-- GBLUR (R120). -/
def execGblur (k : Half) (s : State) : Host.Outcome State Fault Refusal :=
  runCommand (encode (.gblur k)) completeGblur s

end Sys2Proof.Machine
end

