-- ==== Sys2Proof/Machine/Histeq.lean ====
section
/-! DEFINITION. The histogram_equalization_lut unit and HISTEQ (42_histogram_equalization_lut.md). -/

namespace Sys2Proof.Machine

/-- R101: HIST[i], the number of pixels of the gray plane with value i. -/
def histBin (plane : List Byte) (i : Nat) : Nat := plane.countP fun v => v.toNat == i

/-- R101: the 256 bins. -/
def histogram (plane : List Byte) : List Nat := (List.range 256).map (histBin plane)

/-- Running sums: `acc + h₀`, `acc + h₀ + h₁`, ... -/
def runningSums : Nat → List Nat → List Nat
  | _, [] => []
  | acc, h :: hs => (acc + h) :: runningSums (acc + h) hs

/-- R101: CDF[0 .. 255], the cumulative distribution. -/
def cumulative (plane : List Byte) : List Nat := runningSums 0 (histogram plane)

/-- R102: one table entry from its cumulative count and N. -/
def histeqEntry (n cdf : Nat) : Byte := sat8 (rndDiv (255 * cdf : Nat) n)

/-- R102: the 256 table entries of an image with n pixels. -/
def histeqTable (n : Nat) (plane : List Byte) : List Byte :=
  (cumulative plane).map (histeqEntry n)

/-- R100: the completion step of HISTEQ. -/
def completeHisteq (s : State) : State :=
  let table := histeqTable (s.width * s.height) s.grayPlane
  expand (fun y x => table.getD (s.gray y x).toNat 0)
    (publishTable (fun i => s.settled .lut i (table.getD i 0)) s)

/-- HISTEQ (R100). -/
def execHisteq (param : Half) (s : State) : Host.Outcome State Fault Refusal :=
  runCommand (encode (.histeq param)) completeHisteq s

end Sys2Proof.Machine
end

