-- ==== Sys2Proof/Machine/Reserved.lean ====
section
/-! DEFINITION. The six reserved commands (30_encoding.md R66): the document's filters this block does
not contain. Their launch raises UnknownFilter (60_exceptions.md R162); nothing is computed. -/

namespace Sys2Proof.Machine

/-- CSTRETCH, 0x0002 (R66). -/
def execCstretch (param : Half) (s : State) : Host.Outcome State Fault Refusal :=
  runReserved (encode (.cstretch param)) s

/-- LOGT, 0x0004 (R66). -/
def execLogt (param : Half) (s : State) : Host.Outcome State Fault Refusal :=
  runReserved (encode (.logt param)) s

/-- NEGATIVE, 0x0005 (R66). -/
def execNegative (param : Half) (s : State) : Host.Outcome State Fault Refusal :=
  runReserved (encode (.negative param)) s

/-- SHARPEN, 0x0007 (R66). -/
def execSharpen (param : Half) (s : State) : Host.Outcome State Fault Refusal :=
  runReserved (encode (.sharpen param)) s

/-- CARTOON, 0x0008 (R66). -/
def execCartoon (param : Half) (s : State) : Host.Outcome State Fault Refusal :=
  runReserved (encode (.cartoon param)) s

/-- WATERCOLOR, 0x0009 (R66). -/
def execWatercolor (param : Half) (s : State) : Host.Outcome State Fault Refusal :=
  runReserved (encode (.watercolor param)) s

end Sys2Proof.Machine
end

