-- ==== Sys2Proof/Machine/Sobel.lean ====
section
/-! DEFINITION. The sobel_edge_detector unit and SOBEL (45_sobel_edge_detector.md). -/

namespace Sys2Proof.Machine

/-- R142: `g(dy, dx)`, the gray value at an offset from the pixel (y, x), folded at the borders. -/
def State.grayNear (s : State) (y x : Nat) (dy dx : Int) : Int :=
  (s.gray (refl (y + dy) s.height) (refl (x + dx) s.width)).toNat

/-- R142: the horizontal gradient GX, the kernel KX of R141 applied as written. -/
def State.gradX (s : State) (y x : Nat) : Int :=
  let g := s.grayNear y x
  (g (-1) 1 + 2 * g 0 1 + g 1 1) - (g (-1) (-1) + 2 * g 0 (-1) + g 1 (-1))

/-- R142: the vertical gradient GY, the kernel KY of R141 applied as written. -/
def State.gradY (s : State) (y x : Nat) : Int :=
  let g := s.grayNear y x
  (g 1 (-1) + 2 * g 1 0 + g 1 1) - (g (-1) (-1) + 2 * g (-1) 0 + g (-1) 1)

/-- R143: the squared magnitude S. -/
def State.gradSquared (s : State) (y x : Nat) : Nat :=
  (s.gradX y x * s.gradX y x + s.gradY y x * s.gradY y x).toNat

/-- R144: the magnitude M in Q11.8. -/
def State.magnitude (s : State) (y x : Nat) : Nat := isqrt (s.gradSquared y x <<< 16)

/-- The magnitudes of all pixels, for MMIN and MMAX. -/
def State.magnitudes (s : State) : List Nat :=
  (pixels s.height s.width).map fun yx => s.magnitude yx.1 yx.2

/-- R146, R147: the output intensity of a magnitude, given MMIN and D = MMAX − MMIN. -/
def normalise (mmin d m : Nat) : Byte :=
  if d = 0 then 0 else sat8 (rndDiv (255 * (m - mmin) : Nat) d)

/-- R140: the completion step of SOBEL. -/
def completeSobel (s : State) : State :=
  let mmin := listMin s.magnitudes
  let d := listMax s.magnitudes - mmin
  expand (fun y x => normalise mmin d (s.magnitude y x)) s

/-- SOBEL (R140). -/
def execSobel (param : Half) (s : State) : Host.Outcome State Fault Refusal :=
  runCommand (encode (.sobel param)) completeSobel s

end Sys2Proof.Machine
end

