-- ==== Sys2Proof/Machine/Dispatch.lean ====
section
/-! DEFINITION. One arm per command: each calls that command's own meaning. -/

namespace Sys2Proof.Machine

def exec (i : Instr) (s : State) : Host.Outcome State Fault Refusal :=
  match i with
  | .histeq param => Sys2Proof.Machine.execHisteq param s
  | .gamma g => Sys2Proof.Machine.execGamma g s
  | .gblur k => Sys2Proof.Machine.execGblur k s
  | .sobel param => Sys2Proof.Machine.execSobel param s
  | .togray param => Sys2Proof.Machine.execTogray param s
  | .gray2color param => Sys2Proof.Machine.execGray2color param s
  | .cstretch param => Sys2Proof.Machine.execCstretch param s
  | .logt param => Sys2Proof.Machine.execLogt param s
  | .negative param => Sys2Proof.Machine.execNegative param s
  | .sharpen param => Sys2Proof.Machine.execSharpen param s
  | .cartoon param => Sys2Proof.Machine.execCartoon param s
  | .watercolor param => Sys2Proof.Machine.execWatercolor param s

end Sys2Proof.Machine
end

