-- ==== Sys2Proof/Machine/HostAccess.lean ====
section
/-! DEFINITION. The host's accesses to the four address spaces (10_state.md R26, R28; 20_memory.md R43
to R46), each one indivisible. A read changes nothing but the reply the host gets. -/

namespace Sys2Proof.Machine

/-- The register at a byte offset of the register window (10_state.md section 3). -/
inductive RegName where
  | cmd
  | status
  | imgDim
  | imgFmt
  | outFmt
  deriving DecidableEq, Repr

/-- The offsets of 10_state.md section 3; every other offset is reserved (R26). -/
def regAt (offset : Nat) : Option RegName :=
  if offset = 0x00 then some .cmd
  else if offset = 0x04 then some .status
  else if offset = 0x08 then some .imgDim
  else if offset = 0x0C then some .imgFmt
  else if offset = 0x10 then some .outFmt
  else none

/-- The value a register reads as. -/
def State.reg (s : State) : RegName → Word
  | .cmd => s.cmd
  | .status => s.status
  | .imgDim => s.imgDim
  | .imgFmt => s.imgFmt
  | .outFmt => s.outFmt

/-- The host gets a value. -/
def reply (r : Reply) (s : State) : State := { s with replies := r :: s.replies }

/-- The host gets a word the spec leaves unspecified: a fresh draw (log 8). -/
def replyAnyWord (s : State) : State :=
  { s with replies := .word (Config.readWord s.draws) :: s.replies, draws := s.draws + 1 }

/-- The host gets a sample the spec leaves unspecified: a fresh draw (log 8). -/
def replyAnySample (s : State) : State :=
  { s with replies := .sample (Config.readSample s.draws) :: s.replies, draws := s.draws + 1 }

/-- RD: a register reads as it is (R11 to R15); a reserved offset reads as any value (R26). -/
def readReg (offset : Nat) (s : State) : State :=
  match regAt offset with
  | some r => reply (.word (s.reg r)) s
  | none => replyAnyWord s

/-- The launch of a command word: the command it decodes to, on the host's move; a word that is no row
of the table is launched all the same and refused with UnknownFilter (R66, R162). -/
def runCommandWord (word : Word) (s : State) : Host.Outcome State Fault Refusal :=
  match decode word with
  | .ok i => exec i s
  | .error _ => .next (commandWrite word s)

/-- WR: a host write of a register (R11 to R15, R26). -/
def writeReg (offset : Nat) (value : Word) (s : State) : Host.Outcome State Fault Refusal :=
  match regAt offset with
  | some .cmd => runCommandWord value s
  | some .imgDim => .next { s with imgDim := value }
  | some .imgFmt => .next { s with imgFmt := imgFmtStored value }
  | some .status => .next s
  | some .outFmt => .next s
  | none => .next s

/-- WRS: a host write of SRC (R16, R43): ignored at or above CAP. While BUSY, a write inside the input
range disturbs the running command (R196). -/
def writeSrc (a : Nat) (v : Byte) (s : State) : State :=
  if a < s.cap then
    { s with
      src := s.src.write a v
      srcHazard := s.srcHazard || (s.busy && decide (a < s.inputSamples)) }
  else s

/-- A host read of SRC, in any STATE (R16); at or above CAP any value (R43). -/
def readSrc (a : Nat) (s : State) : State :=
  if a < s.cap then reply (.sample (s.srcAt a)) s else replyAnySample s

/-- RDD: a host read of DST (R17): any value while BUSY (R197) and at or above CAP (R43). -/
def readDst (a : Nat) (s : State) : State :=
  if a < s.cap ∧ !s.busy then reply (.sample (s.dstAt a)) s else replyAnySample s

/-- RDL: a host read of LUT (R18): any value while BUSY, while LUT_VALID = 0, and at or above 256
(R43). -/
def readLut (i : Nat) (s : State) : State :=
  if i < 256 ∧ !s.busy ∧ lutValidField s.outFmt then reply (.sample (s.lutAt i)) s
  else replyAnySample s

/-- A register access is a whole, naturally aligned word (R44, R45): the offset is a multiple of 4. -/
def aligned (offset : Nat) : Bool := offset % 4 == 0

/-- One access of the host. -/
def hostAccess (a : HostAccess) (s : State) : Host.Outcome State Fault Refusal :=
  match a with
  | .writeReg offset value =>
    if aligned offset then writeReg offset value s else .refused .registerAccessNotWholeWord
  | .readReg offset =>
    if aligned offset then .next (readReg offset s) else .refused .registerAccessNotWholeWord
  | .narrowWrite _ _ _ => .refused .registerAccessNotWholeWord
  | .narrowRead _ _ => .refused .registerAccessNotWholeWord
  | .writeSrc index value => .next (writeSrc index value s)
  | .readSrc index => .next (readSrc index s)
  | .writeDst _ _ => .next s
  | .readDst index => .next (readDst index s)
  | .writeLut _ _ => .next s
  | .readLut index => .next (readLut index s)

end Sys2Proof.Machine
end

