-- ==== Sys2Proof/Machine/Schedule.lean ====
section
/-! DEFINITION. Whose move it is (00_scope.md R7): the host's accesses in program order (20_memory.md
R50, R55), reset, and the engine's completion step (60_exceptions.md R171) between them. -/

namespace Sys2Proof.Machine

/-- The engine's move (R171): enabled exactly while STATE = BUSY, it runs the command
`decode({L.PARAM, L.ID})`; otherwise it does nothing. A latch that holds no row of the table names no
completion (log 11). -/
def engineMove (s : State) : Host.Outcome State Fault Refusal :=
  if s.busy then
    match decode s.latch.word with
    | .ok i => exec i { s with turn := .engine }
    | .error _ => .next { s with turn := .engine }
  else .next { s with turn := .engine }

/-- WAIT (R69): "repeat RD STATUS until STATE ≠ BUSY". While BUSY it polls `polls` times, then lets the
engine move, and stays pending (R176, log 17); else it makes its last read of STATUS. `rest` is what
follows it in the schedule. -/
def waitMove (polls : Nat) (rest : List Event) (s : State) : Host.Outcome State Fault Refusal :=
  if s.busy then
    match polls with
    | n + 1 => .next (readReg 0x04 { s with turn := .host, schedule := .wait n :: rest })
    | 0 => engineMove { s with schedule := .wait 0 :: rest }
  else .next (readReg 0x04 { s with turn := .host, schedule := rest })

/-- One event. The state's schedule is already what follows it. -/
def runEvent (e : Event) (s : State) : Host.Outcome State Fault Refusal :=
  match e with
  | .access a => hostAccess a { s with turn := .host }
  | .wait polls => waitMove polls s.schedule s
  | .engine => engineMove s
  | .reset => .next (assertReset { s with turn := .host })

/-- The next move: the first event of the schedule, and the engine's when nothing is scheduled, so
that a running command completes (R176, log 13). -/
def nextMove (s : State) : Host.Outcome State Fault Refusal :=
  match s.schedule with
  | [] => engineMove s
  | e :: rest => runEvent e { s with schedule := rest }

/-- The state in which the host's next move is to write a command word to CMD. -/
def withCommandWord (word : Word) (s : State) : State :=
  { s with schedule := .access (.writeReg 0x00 word) :: s.schedule }

end Sys2Proof.Machine
end

