-- ==== Sys2Proof/Machine/Step.lean ====
section
/-! DEFINITION. One step of the machine: the next move of the schedule (Machine/Schedule.lean). -/

namespace Sys2Proof.Machine

/-- One step: one indivisible move of the host or of the engine (R7, R46, R170, R171). -/
def step (s : State) : Host.Outcome State Fault Refusal := nextMove s

/-- The state in which the next step runs the command of an opcode-table word: the host's next access
writes it to CMD, which is where a command comes from (R23, R60; log 3). -/
def State.withFetchWord (s : State) (nbits w : Nat) : State := withCommandWord (tableWord nbits w) s

end Sys2Proof.Machine
end

