-- ==== Sys2Proof/Machine/HostProcedures.lean ====
section
/-! DEFINITION. The host's pseudo-commands (30_encoding.md R69 to R71) as schedules: what a mnemonic
line, APPLY and CHAIN stand for. They are the host's, not the block's: the block sees the accesses. -/

namespace Sys2Proof.Machine

/-- R69: "A mnemonic line is exactly a `WR CMD, word`." -/
def mnemonicLine (i : Instr) : Event := .access (.writeReg 0x00 (encode i))

/-- The document's PixelBuffer, as APPLY takes and returns it (R70). -/
structure PixelBuffer where
  w : Half
  h : Half
  c : BitVec 2
  samples : List Byte
  deriving DecidableEq, Repr

/-- `WRS a, s[a]` for all a, from index `base` on. -/
def loadSamples : Nat → List Byte → List Event
  | _, [] => []
  | base, v :: vs => .access (.writeSrc base v) :: loadSamples (base + 1) vs

/-- R70: the accesses of APPLY up to its second WAIT, whose last read of STATUS it decides on.
`polls₁` and `polls₂` are how often each WAIT reads BUSY (log 17). -/
def applySchedule (b : PixelBuffer) (id param : Half) (polls₁ polls₂ : Nat) : List Event :=
  .wait polls₁ :: loadSamples 0 b.samples ++
    [.access (.writeReg 0x08 (b.h ++ b.w)), .access (.writeReg 0x0C (b.c.setWidth 32)),
      .access (.writeReg 0x00 (commandWord param id)), .wait polls₂, .access (.readReg 0x04)]

/-- R70: the reads with which APPLY fetches a result, in the state after its last RD STATUS: OUT_FMT,
then every sample of the output. -/
def applyReadSchedule (b : PixelBuffer) (s : State) : List Event :=
  if s.phase = stateDone then
    .access (.readReg 0x10) ::
      (List.range (b.w.toNat * b.h.toNat * (outCField s.outFmt).toNat)).map fun a =>
        .access (.readDst a)
  else []

/-- R70: what APPLY returns in that state: the buffer in DST, or the error code. -/
def applyResult (b : PixelBuffer) (s : State) : Except (BitVec 2) PixelBuffer :=
  if s.phase = stateDone then
    let cOut := outCField s.outFmt
    .ok { w := b.w
          h := b.h
          c := cOut
          samples := (List.range (b.w.toNat * b.h.toNat * cOut.toNat)).map s.dstAt }
  else .error (errField s.status)

/-- R71: CHAIN after a command that ended in DONE: copy DST to SRC, sample by sample, and make the
output's channel count the input's. -/
def chainSchedule (s : State) : List Event :=
  let cOut := outCField s.outFmt
  ((List.range (s.width * s.height * cOut.toNat)).flatMap fun a =>
      [.access (.readDst a), .access (.writeSrc a (s.dstAt a))]) ++
    [.access (.writeReg 0x0C (cOut.setWidth 32))]

end Sys2Proof.Machine
end

