-- ==== Sys2Proof/Safety.lean ====
section
/-! DEFINITION. What a legal state is (the invariant of the block), and the vocabulary in which the
statements speak of a step: when a command completes undisturbed, and what a step leaves alone. -/

namespace Sys2Proof.Machine

/-! ### The invariant -/

/-- The stores are in canonical form and hold no index that does not exist (R16, R17, R18, R48). -/
structure StoresLegal (s : State) : Prop where
  srcCanonical : s.src.wf = true
  srcInside : s.src.below s.cap = true
  dstCanonical : s.dst.wf = true
  dstInside : s.dst.below s.cap = true
  lutCanonical : s.lut.wf = true
  lutInside : s.lut.below 256 = true

/-- The registers hold only values the host can read from them: reserved bits are zero (R12, R14,
R15), ERR is nonzero exactly when STATE = ERROR (R12), OUT_C is 0, 1 or 3 and announces a result
exactly when STATE = DONE (R15). -/
structure RegistersLegal (s : State) : Prop where
  statusReserved : s.status &&& 0xFFFFFFCC = 0
  errExactlyInError : errField s.status ≠ 0 ↔ s.phase = stateError
  imgFmtReserved : s.imgFmt &&& 0xFFFFFFFC = 0
  outFmtReserved : s.outFmt &&& 0xFFFFFEFC = 0
  outCNotTwo : outCField s.outFmt ≠ 2
  outCExactlyInDone : outCField s.outFmt ≠ 0 ↔ s.phase = stateDone

/-- The command in progress: CMD and the latch agree once a command has been launched (R20, R170),
a running command has passed validation (R170), and only a running command can have been disturbed
(R196). -/
structure CommandLegal (s : State) : Prop where
  idleHasNoCommand : s.phase = stateIdle → s.cmd = 0
  latchHoldsCommand : s.phase ≠ stateIdle → s.latch.word = s.cmd
  busyIsValidated : s.busy = true → validate s.cap s.latch = none
  hazardOnlyWhileBusy : s.srcHazard = true → s.busy = true

/-- The invariant that every step keeps. -/
structure State.Inv (s : State) : Prop where
  stores : StoresLegal s
  registers : RegistersLegal s
  command : CommandLegal s

/-! ### A command about to complete -/

/-- The command `i` is running and it is the engine's move (R171). -/
structure Completing (i : Instr) (s : State) : Prop where
  engineMoves : s.turn = .engine
  running : s.busy = true
  latched : s.latch.word = encode i

/-- It is running and the host has kept away from its input (R196). -/
structure CompletingUndisturbed (i : Instr) (s : State) : Prop where
  completing : Completing i s
  undisturbed : s.srcHazard = false

/-- What the launch of `i` latches: the command and the geometry registers as they are (R20). -/
def latchedBy (i : Instr) (s : State) : Latch :=
  { id := i.id
    param := i.param
    w := s.imgDim.extractLsb' 0 16
    h := s.imgDim.extractLsb' 16 16
    c := s.imgFmt.extractLsb' 0 2 }

/-- C_out, the channel count of a command's output: 1 for TOGRAY (R81), 3 for GRAY2COLOR (R87), the
input's for the others (R48). -/
def outChans (i : Instr) (s : State) : Nat :=
  match i with
  | .togray _ => 1
  | .gray2color _ => 3
  | .histeq _ | .gamma _ | .gblur _ | .sobel _ => s.chans
  | .cstretch _ | .logt _ | .negative _ | .sharpen _ | .cartoon _ | .watercolor _ => s.chans

/-! ### What a step leaves alone -/

/-- The model's own fields of the host's side, and the parameter CAP. -/
structure SameOutside (s t : State) : Prop where
  cap : t.cap = s.cap
  turn : t.turn = s.turn
  schedule : t.schedule = s.schedule
  replies : t.replies = s.replies
  epoch : t.epoch = s.epoch

/-- Every sample of every store reads as before. -/
structure SameSamples (s t : State) : Prop where
  src : ∀ a, t.srcAt a = s.srcAt a
  dst : ∀ a, t.dstAt a = s.dstAt a
  lut : ∀ i, t.lutAt i = s.lutAt i

/-- What a launch leaves alone (R165, R170): everything but CMD, STATUS.STATE, STATUS.ERR, the latch
and OUT_FMT.OUT_C. -/
structure LaunchFrame (s t : State) : Prop where
  outside : SameOutside s t
  samples : SameSamples s t
  draws : t.draws = s.draws
  imgDim : t.imgDim = s.imgDim
  imgFmt : t.imgFmt = s.imgFmt
  statusOther : ∀ n, (2 ≤ n ∧ n < 4) ∨ 6 ≤ n → t.status.getLsbD n = s.status.getLsbD n
  outFmtOther : ∀ n, 2 ≤ n → t.outFmt.getLsbD n = s.outFmt.getLsbD n

/-- What a refused launch of the word `w` with the latch `l` leaves (R165): the word, the latch, ERROR
and the code of the error (InvalidBuffer 1, UnknownFilter 2, InvalidParameter 3), no result announced,
and everything else as it was. -/
structure RecordsRefusal (w : Word) (l : Latch) (e : ErrorKind) (s t : State) : Prop where
  cmd : t.cmd = w
  latch : t.latch = l
  error : t.phase = stateError
  code : errField t.status =
    (match e with
      | .invalidBuffer => 1
      | .unknownFilter => 2
      | .invalidParameter => 3)
  withdrawn : outCField t.outFmt = 0
  hazard : t.srcHazard = s.srcHazard
  frame : LaunchFrame s t

/-- What the completion of a command with output channel count `cOut` leaves alone (R171): SRC, the
registers CMD, IMG_DIM, IMG_FMT and STATUS.ERR, the latch, and DST at and above L.W·L.H·C_out. -/
structure CompletionFrame (cOut : Nat) (s t : State) : Prop where
  outside : SameOutside s t
  src : ∀ a, t.srcAt a = s.srcAt a
  dstBeyond : ∀ a, s.width * s.height * cOut ≤ a → t.dstAt a = s.dstAt a
  cmd : t.cmd = s.cmd
  imgDim : t.imgDim = s.imgDim
  imgFmt : t.imgFmt = s.imgFmt
  latch : t.latch = s.latch
  statusOther : ∀ n, 2 ≤ n → t.status.getLsbD n = s.status.getLsbD n

/-- The LUT and its valid bit are as before: what GBLUR, SOBEL, TOGRAY and GRAY2COLOR leave alone
(R18). -/
structure TableFrame (s t : State) : Prop where
  lut : ∀ i, t.lutAt i = s.lutAt i
  outFmtOther : ∀ n, 2 ≤ n → t.outFmt.getLsbD n = s.outFmt.getLsbD n

/-- The block ends a command: STATE = DONE and OUT_C announces `cOut` channels (R171). -/
structure Delivered (cOut : Nat) (t : State) : Prop where
  done : t.phase = stateDone
  announced : (outCField t.outFmt).toNat = cOut

/-! ### Words for the statements about images -/

/-- `(y, x)` is a pixel of the latched input image. -/
def State.hasPixel (s : State) (y x : Nat) : Prop := y < s.height ∧ x < s.width

/-- R101: CDF[i], "the number of pixels with value at most i" of the latched image's gray plane. -/
def State.cdf (s : State) (i : Nat) : Nat :=
  (pixels s.height s.width).countP fun yx => decide ((s.gray yx.1 yx.2).toNat ≤ i)

/-- R111: the condition `(2·m − 1)^256 · 255^g ≤ 510^256 · i^g` on an output level m of GAMMA. -/
abbrev GammaReaches (i g m : Nat) : Prop := (2 * m - 1) ^ 256 * 255 ^ g ≤ 510 ^ 256 * i ^ g

/-- `mmin` and `mmax` are the smallest and the largest magnitude over the image (R146). -/
structure State.MagnitudeRange (s : State) (mmin mmax : Nat) : Prop where
  lower : ∀ y x, s.hasPixel y x → mmin ≤ s.magnitude y x
  upper : ∀ y x, s.hasPixel y x → s.magnitude y x ≤ mmax
  lowerTaken : ∃ y x, s.hasPixel y x ∧ s.magnitude y x = mmin
  upperTaken : ∃ y x, s.hasPixel y x ∧ s.magnitude y x = mmax

/-- The sum of `f` over the taps of the latched kernel, weighted by its coefficients. -/
def State.tapSum (s : State) (f : Nat → Nat) : Nat :=
  sumTaps s.kernelSize fun j => krom s.kernelSize j * f j

/-- R126: V as the full two-dimensional convolution. -/
def State.blurFull (s : State) (y x c : Nat) : Nat :=
  sumTaps s.kernelSize fun u => sumTaps s.kernelSize fun v =>
    krom s.kernelSize u * krom s.kernelSize v *
      (s.srcAt (idx s.width s.chans (tapCoord s.kernelSize u y s.height)
        (tapCoord s.kernelSize v x s.width) c)).toNat

/-- The state moves to another in exactly `n` steps. -/
inductive Steps : Nat → State → State → Prop where
  | none (s : State) : Steps 0 s s
  | more {n : Nat} {s t u : State} : step s = .next t → Steps n t u → Steps (n + 1) s u

/-- How many steps a schedule can take before the engine must have moved: one for each event, and one
more for each poll of a WAIT. -/
def scheduleSteps : List Event → Nat
  | [] => 0
  | .wait polls :: rest => polls + 1 + scheduleSteps rest
  | _ :: rest => 1 + scheduleSteps rest

/-- A schedule without the one move the model refuses (R44). -/
def Event.wholeWord : Event → Bool
  | .access (.writeReg offset _) => aligned offset
  | .access (.readReg offset) => aligned offset
  | .access (.narrowWrite _ _ _) => false
  | .access (.narrowRead _ _) => false
  | _ => true

end Sys2Proof.Machine
end

