-- ==== Sys2Proof/Certificates/Slice0/Obligations.lean ====
section
/-! DEFINITION. The statements for the provers. Each says what a rule of spec/ says the block does; the
definitions they use beside the model's own stand in Sys2Proof/Safety.lean. -/

open Sys2Proof Sys2Proof.Machine

/-! ### Encoding -/

/-- The words of 95_test_vectors.md section 2.1 decode to the commands their identifiers stand for. The
model's choice (log 20): the six reserved identifiers 0x0002, 0x0004, 0x0005, 0x0007, 0x0008 and 0x0009,
which R68 and section 2.1 call Unknown, decode to the named rows of the opcode table, and an unassigned
identifier, Unknown there too, is refused by name. -/
def Obligations.CommandWordsDecodeAsTabulated : Prop :=
  decode 0x00000001 = .ok (.histeq 0x0000) ∧ decode 0xABCD0001 = .ok (.histeq 0xABCD) ∧
  decode 0x02330003 = .ok (.gamma 0x0233) ∧ decode 0xFF000003 = .ok (.gamma 0xFF00) ∧
  decode 0x00150006 = .ok (.gblur 21) ∧ decode 0x00040006 = .ok (.gblur 4) ∧
  decode 0x0000000A = .ok (.sobel 0) ∧ decode 0x00000010 = .ok (.togray 0) ∧
  decode 0x00000011 = .ok (.gray2color 0) ∧ decode 0x00000002 = .ok (.cstretch 0) ∧
  decode 0x00000004 = .ok (.logt 0) ∧ decode 0x00000005 = .ok (.negative 0) ∧
  decode 0x00000007 = .ok (.sharpen 0) ∧ decode 0x00000008 = .ok (.cartoon 0) ∧
  decode 0x00000009 = .ok (.watercolor 0) ∧ decode 0x00000000 = .error (.unassigned 0) ∧
  decode 0x00030106 = .error (.unassigned 0x0106) ∧ decode 0x0000FFFF = .error (.unassigned 0xFFFF)

/-- R61, R63, R66: the identifier is bits 15:0 alone, PARAM is bits 31:16 whole; the six implemented
identifiers decode to their commands, and no unassigned identifier is a command. The model's choice
(log 20): the six reserved identifiers, which R68's decode answers with Unknown, decode to the named
rows of the opcode table. -/
def Obligations.DecodeFollowsIdentifierTable : Prop :=
  (∀ p : Half,
    decode (p ++ (0x0001 : Half)) = .ok (.histeq p) ∧
    decode (p ++ (0x0002 : Half)) = .ok (.cstretch p) ∧
    decode (p ++ (0x0003 : Half)) = .ok (.gamma p) ∧
    decode (p ++ (0x0004 : Half)) = .ok (.logt p) ∧
    decode (p ++ (0x0005 : Half)) = .ok (.negative p) ∧
    decode (p ++ (0x0006 : Half)) = .ok (.gblur p) ∧
    decode (p ++ (0x0007 : Half)) = .ok (.sharpen p) ∧
    decode (p ++ (0x0008 : Half)) = .ok (.cartoon p) ∧
    decode (p ++ (0x0009 : Half)) = .ok (.watercolor p) ∧
    decode (p ++ (0x000A : Half)) = .ok (.sobel p) ∧
    decode (p ++ (0x0010 : Half)) = .ok (.togray p) ∧
    decode (p ++ (0x0011 : Half)) = .ok (.gray2color p)) ∧
  (∀ p id : Half, (id = 0 ∨ (0x000B ≤ id ∧ id ≤ 0x000F) ∨ 0x0012 ≤ id) →
    decode (p ++ id) = .error (.unassigned id))

/-- Decoding an encoded command gives it back, whatever its PARAM, and a word that decodes is the
encoding of what it decodes to: no bit of a command word is dropped (R60, R61, R68). -/
def Obligations.DecodeAndEncodeAreInverse : Prop :=
  (∀ i : Instr, decode (encode i) = .ok i) ∧
  (∀ (w : Word) (i : Instr), decode w = .ok i → encode i = w)

/-! ### Reset -/

/-- R25: the registers after reset, and (logs 5, 6: the model's free values) every sample and the latch
unspecified. -/
def Obligations.ResetStateHasZeroRegisters : Prop :=
  State.reset.cmd = 0 ∧ State.reset.status = 0 ∧ State.reset.imgDim = 0 ∧ State.reset.imgFmt = 0 ∧
  State.reset.outFmt = 0 ∧ State.reset.phase = stateIdle ∧
  (∀ a, State.reset.srcAt a = Config.resetSample .src 0 a) ∧
  (∀ a, State.reset.dstAt a = Config.resetSample .dst 0 a) ∧
  (∀ i, State.reset.lutAt i = Config.resetSample .lut 0 i) ∧
  State.reset.latch.id = Config.resetLatchId 0 ∧ State.reset.latch.param = Config.resetLatchParam 0 ∧
  State.reset.latch.w = Config.resetLatchW 0 ∧ State.reset.latch.h = Config.resetLatchH 0 ∧
  State.reset.latch.c = Config.resetLatchC 0

/-- R190, R191: asserting reset in any state, BUSY included, puts every register at its reset value and
draws every sample of SRC, DST and LUT, and the latch, afresh (free values of the draw that the state
has reached; logs 5, 6, 7). -/
def Obligations.ResetAbortsAndDrawsAfresh : Prop :=
  ∀ (s : State) (rest : List Event), s.schedule = .reset :: rest →
    ∃ t, step s = .next t ∧ t.cmd = 0 ∧ t.status = 0 ∧ t.imgDim = 0 ∧ t.imgFmt = 0 ∧
      t.outFmt = 0 ∧ t.phase = stateIdle ∧ t.busy = false ∧
      (∀ a, t.srcAt a = Config.resetSample .src s.draws a) ∧
      (∀ a, t.dstAt a = Config.resetSample .dst s.draws a) ∧
      (∀ i, t.lutAt i = Config.resetSample .lut s.draws i) ∧
      t.latch = { id := Config.resetLatchId s.draws, param := Config.resetLatchParam s.draws,
                  w := Config.resetLatchW s.draws, h := Config.resetLatchH s.draws,
                  c := Config.resetLatchC s.draws } ∧
      t.draws = s.draws + 1 ∧ t.cap = s.cap ∧ t.schedule = rest ∧ t.replies = s.replies

/-! ### The launch -/

/-- R60, R69, R171: a step whose move is a host write of a command word to CMD, or a mnemonic line, runs
the command the word decodes to, on the host's move; a step whose move is the engine's, while BUSY, runs
the command the latch holds, on the engine's move. The model's choices: the engine also moves when
nothing is scheduled (log 13) and when a WAIT has no polls left (log 17), and a word that
`withFetchWord` places is run next (log 3). -/
def Obligations.StepRunsTheDecodedCommand : Prop :=
  (∀ (s : State) (rest : List Event) (w : Word) (i : Instr),
    s.schedule = .access (.writeReg 0x00 w) :: rest → decode w = .ok i →
    step s = exec i { s with schedule := rest, turn := .host }) ∧
  (∀ (s : State) (rest : List Event) (i : Instr), s.schedule = mnemonicLine i :: rest →
    step s = exec i { s with schedule := rest, turn := .host }) ∧
  (∀ (s : State) (rest : List Event) (i : Instr), s.schedule = .engine :: rest → s.busy = true →
    decode s.latch.word = .ok i →
    step s = exec i { s with schedule := rest, turn := .engine }) ∧
  (∀ (s : State) (i : Instr), s.schedule = [] → s.busy = true → decode s.latch.word = .ok i →
    step s = exec i { s with turn := .engine }) ∧
  (∀ (s : State) (rest : List Event) (i : Instr), s.schedule = .wait 0 :: rest → s.busy = true →
    decode s.latch.word = .ok i → step s = exec i { s with turn := .engine }) ∧
  (∀ (s : State) (w : Nat) (i : Instr), decodeTableWord 32 w = some i →
    step (s.withFetchWord 32 w) = exec i { s with turn := .host })

/-- R170, R20: the launch of a command that passes validation, for every command and state: CMD and the
latch take the command and the geometry, OUT_C is withdrawn, ERR is 0, STATE is BUSY, and nothing else
changes. -/
def Obligations.AcceptedLaunchLatchesAndRuns : Prop :=
  ∀ (i : Instr) (s : State), s.turn = .host → s.busy = false →
    validate s.cap (latchedBy i s) = none →
    ∃ t, exec i s = .next t ∧ t.cmd = i.param ++ i.id ∧ t.latch = latchedBy i s ∧
      t.phase = stateBusy ∧ errField t.status = 0 ∧ outCField t.outFmt = 0 ∧
      t.srcHazard = false ∧ LaunchFrame s t

/-- R165: a launch that fails validation records CMD, the latch, OUT_C = 0 and the error's code
(InvalidBuffer 1, UnknownFilter 2, InvalidParameter 3), and changes nothing else: SRC, DST, LUT,
LUT_VALID, IMG_DIM and IMG_FMT are as before. Said of every command, and of a host write of any word,
row of the table or not, to CMD. -/
def Obligations.RefusedLaunchRecordsOnlyItsCode : Prop :=
  (∀ (i : Instr) (s : State) (e : ErrorKind), s.turn = .host → s.busy = false →
    validate s.cap (latchedBy i s) = some e →
    ∃ t, exec i s = .next t ∧ RecordsRefusal (i.param ++ i.id) (latchedBy i s) e s t) ∧
  (∀ (s : State) (rest : List Event) (p id : Half) (e : ErrorKind),
    let l : Latch := { id := id, param := p, w := s.imgDim.extractLsb' 0 16,
                       h := s.imgDim.extractLsb' 16 16, c := s.imgFmt.extractLsb' 0 2 }
    s.schedule = .access (.writeReg 0x00 (p ++ id)) :: rest → s.busy = false →
    validate s.cap l = some e →
    ∃ t, step s = .next t ∧
      RecordsRefusal (p ++ id) l e { s with schedule := rest, turn := .host } t)

/-- R66, R162: the six reserved commands (CSTRETCH, LOGT, NEGATIVE, SHARPEN, CARTOON, WATERCOLOR) run
whenever the block is not BUSY, whatever PARAM and the geometry are: the launch raises UnknownFilter,
nothing is computed and no sample changes. -/
def Obligations.ReservedCommandsRaiseUnknownFilter : Prop :=
  ∀ (p : Half) (s : State), s.turn = .host → s.busy = false →
    ∀ i : Instr, (i = .cstretch p ∨ i = .logt p ∨ i = .negative p ∨ i = .sharpen p ∨
        i = .cartoon p ∨ i = .watercolor p) →
      ∃ t, exec i s = .next t ∧ t.cmd = i.param ++ i.id ∧ t.latch = latchedBy i s ∧
        t.phase = stateError ∧ errField t.status = 2 ∧ outCField t.outFmt = 0 ∧ LaunchFrame s t

/-- R66, R162: a CMD write whose identifier is unassigned raises UnknownFilter too, and keeps the word
in CMD. -/
def Obligations.UnassignedIdentifierRaisesUnknownFilter : Prop :=
  ∀ (s : State) (rest : List Event) (p id : Half),
    s.schedule = .access (.writeReg 0x00 (p ++ id)) :: rest → s.busy = false →
    (id = 0 ∨ (0x000B ≤ id ∧ id ≤ 0x000F) ∨ 0x0012 ≤ id) →
    ∃ t, step s = .next t ∧ t.cmd = p ++ id ∧ t.latch.id = id ∧ t.latch.param = p ∧
      t.phase = stateError ∧ errField t.status = 2 ∧ outCField t.outFmt = 0 ∧
      LaunchFrame { s with schedule := rest, turn := .host } t

/-- R198, R11: "Do not write CMD while STATE = BUSY. The write is dropped": no state of the block
changes, whatever the word. -/
def Obligations.CommandWriteWhileBusyIsDropped : Prop :=
  (∀ (i : Instr) (s : State), s.turn = .host → s.busy = true → exec i s = .next s) ∧
  (∀ (s : State) (rest : List Event) (w : Word),
    s.schedule = .access (.writeReg 0x00 w) :: rest → s.busy = true →
    step s = .next { s with schedule := rest, turn := .host })

/-- R161, R166: validation reports UnknownFilter before InvalidParameter before InvalidBuffer, each
exactly in its cases. -/
def Obligations.ValidationReportsTheFirstFailure : Prop :=
  ∀ (cap : Nat) (l : Latch),
    let known := l.id = 0x0001 ∨ l.id = 0x0003 ∨ l.id = 0x0006 ∨ l.id = 0x000A ∨ l.id = 0x0010 ∨
      l.id = 0x0011
    let badGamma := l.id = 0x0003 ∧ (l.param = 0 ∨ 0x8000 ≤ l.param)
    let badKernel := l.id = 0x0006 ∧
      ¬ (3 ≤ l.param.toNat ∧ l.param.toNat ≤ 21 ∧ l.param.toNat % 2 = 1)
    let badBuffer := l.w = 0 ∨ l.h = 0 ∨
      (l.id = 0x0011 ∧ (l.c ≠ 1 ∨ cap < 3 * (l.w.toNat * l.h.toNat))) ∨
      (l.id ≠ 0x0011 ∧ ((l.c ≠ 1 ∧ l.c ≠ 3) ∨ cap < l.w.toNat * l.h.toNat * l.c.toNat))
    (validate cap l = some .unknownFilter ↔ ¬ known) ∧
    (validate cap l = some .invalidParameter ↔ known ∧ (badGamma ∨ badKernel)) ∧
    (validate cap l = some .invalidBuffer ↔
      known ∧ ¬ badGamma ∧ ¬ badKernel ∧ badBuffer) ∧
    (validate cap l = none ↔ known ∧ ¬ badGamma ∧ ¬ badKernel ∧ ¬ badBuffer)

/-- The two checks of R161 that concern the command word alone are `Instr.wellFormed`: a well-formed
command can fail only the buffer check. -/
def Obligations.WellFormedCommandsPassTheWordChecks : Prop :=
  ∀ (i : Instr) (s : State),
    i.wellFormed = true ↔
      (validate s.cap (latchedBy i s) = none ∨
        validate s.cap (latchedBy i s) = some .invalidBuffer)

/-! ### The completions -/

/-- R80, R81, R85, R171: TOGRAY stores the gray plane, one channel, and changes nothing else. -/
def Obligations.TograyStoresTheGrayPlane : Prop :=
  ∀ (p : Half) (s : State), CompletingUndisturbed (.togray p) s →
    ∃ t, exec (.togray p) s = .next t ∧
      (∀ y x, s.hasPixel y x → t.dstAt (idx s.width 1 y x 0) = s.gray y x) ∧
      Delivered 1 t ∧ CompletionFrame 1 s t ∧ TableFrame s t ∧ t.draws = s.draws

/-- R86, R87, R171: GRAY2COLOR copies every sample of the single-channel input into three channels, and
changes nothing else. -/
def Obligations.Gray2colorReplicatesTheChannel : Prop :=
  ∀ (p : Half) (s : State), CompletingUndisturbed (.gray2color p) s →
    ∃ t, exec (.gray2color p) s = .next t ∧
      (∀ y x c, s.hasPixel y x → c < 3 →
        t.dstAt (idx s.width 3 y x c) = s.srcAt (idx s.width 1 y x 0)) ∧
      Delivered 3 t ∧ CompletionFrame 3 s t ∧ TableFrame s t ∧ t.draws = s.draws

/-- R100, R101, R102, R104: HISTEQ publishes LUT[i] = (510·CDF[i] + N) div (2·N), stores LUT[G] in every
channel, sets LUT_VALID, and changes nothing else. -/
def Obligations.HisteqEqualisesTheGrayPlane : Prop :=
  ∀ (p : Half) (s : State), CompletingUndisturbed (.histeq p) s →
    ∃ t, exec (.histeq p) s = .next t ∧
      (∀ i, i < 256 →
        (t.lutAt i).toNat
          = (510 * s.cdf i + s.width * s.height) / (2 * (s.width * s.height))) ∧
      (∀ i, 256 ≤ i → t.lutAt i = s.lutAt i) ∧
      (∀ y x c, s.hasPixel y x → c < s.chans →
        t.dstAt (idx s.width s.chans y x c) = t.lutAt (s.gray y x).toNat) ∧
      lutValidField t.outFmt = true ∧
      (∀ n, 2 ≤ n → n ≠ 8 → t.outFmt.getLsbD n = s.outFmt.getLsbD n) ∧
      Delivered s.chans t ∧ CompletionFrame s.chans s t ∧ t.draws = s.draws

/-- R110, R111, R112: GAMMA publishes, for every i, the largest m in 0..255 with m = 0 or
(2·m − 1)^256·255^g ≤ 510^256·i^g, stores LUT[G] in every channel, sets LUT_VALID, and changes nothing
else. -/
def Obligations.GammaAppliesThePowerLaw : Prop :=
  ∀ (g : Half) (s : State), CompletingUndisturbed (.gamma g) s → 0 < g.toInt →
    ∃ t, exec (.gamma g) s = .next t ∧
      (∀ i, i < 256 →
        ((t.lutAt i).toNat = 0 ∨ GammaReaches i g.toNat (t.lutAt i).toNat) ∧
        ∀ m, (t.lutAt i).toNat < m → m ≤ 255 → ¬ GammaReaches i g.toNat m) ∧
      (∀ i, 256 ≤ i → t.lutAt i = s.lutAt i) ∧
      (∀ y x c, s.hasPixel y x → c < s.chans →
        t.dstAt (idx s.width s.chans y x c) = t.lutAt (s.gray y x).toNat) ∧
      lutValidField t.outFmt = true ∧
      (∀ n, 2 ≤ n → n ≠ 8 → t.outFmt.getLsbD n = s.outFmt.getLsbD n) ∧
      Delivered s.chans t ∧ CompletionFrame s.chans s t ∧ t.draws = s.draws

/-- R120, R124, R125: GBLUR stores (V + 2^31) >> 32 for every sample of every channel, and changes
nothing else; V is given tap by tap in `SeparableBlurEqualsFullConvolution`. -/
def Obligations.GblurStoresTheBlurredSamples : Prop :=
  ∀ (k : Half) (s : State), CompletingUndisturbed (.gblur k) s →
    ∃ t, exec (.gblur k) s = .next t ∧
      (∀ y x c, s.hasPixel y x → c < s.chans →
        (t.dstAt (idx s.width s.chans y x c)).toNat = (s.blurV y x c + 2 ^ 31) / 2 ^ 32) ∧
      Delivered s.chans t ∧ CompletionFrame s.chans s t ∧ TableFrame s t ∧ t.draws = s.draws

/-- R140, R146, R147, R148: SOBEL stores in every channel the magnitude normalised from MMIN..MMAX to
0..255, rounded to nearest with ties up, or 0 when MMAX = MMIN, and changes nothing else. -/
def Obligations.SobelStoresTheNormalisedMagnitude : Prop :=
  ∀ (p : Half) (s : State), CompletingUndisturbed (.sobel p) s →
    ∃ t, exec (.sobel p) s = .next t ∧
      (0 < s.width → 0 < s.height → ∃ mmin mmax, s.MagnitudeRange mmin mmax) ∧
      (∀ mmin mmax, s.MagnitudeRange mmin mmax → ∀ y x c, s.hasPixel y x → c < s.chans →
        (t.dstAt (idx s.width s.chans y x c)).toNat =
          if mmax = mmin then 0
          else (510 * (s.magnitude y x - mmin) + (mmax - mmin)) / (2 * (mmax - mmin))) ∧
      Delivered s.chans t ∧ CompletionFrame s.chans s t ∧ TableFrame s t ∧ t.draws = s.draws

/-- R196 (and log 9): a command whose input the host wrote while it ran still completes, in DONE with
OUT_C as usual; every sample of its output range, and for HISTEQ every LUT entry, is a free value of
this completion. R196 makes nothing else unspecified: GAMMA still publishes the table of R111, HISTEQ
and GAMMA still set LUT_VALID and keep the other bits of OUT_FMT above OUT_C, and the other commands
leave LUT and LUT_VALID alone. -/
def Obligations.DisturbedCommandCompletesWithAnyOutput : Prop :=
  ∀ (i : Instr) (s : State), i.implemented = true → Completing i s → s.srcHazard = true →
    ∃ t, exec i s = .next t ∧
      (∀ y x c, s.hasPixel y x → c < outChans i s →
        t.dstAt (idx s.width (outChans i s) y x c)
          = Config.hazardSample .dst s.draws (idx s.width (outChans i s) y x c)) ∧
      (∀ p, i = .histeq p → ∀ j, j < 256 →
        t.lutAt j = Config.hazardSample .lut s.draws j) ∧
      (∀ g, i = .gamma g → 0 < g.toInt → ∀ j, j < 256 →
        ((t.lutAt j).toNat = 0 ∨ GammaReaches j g.toNat (t.lutAt j).toNat) ∧
        ∀ m, (t.lutAt j).toNat < m → m ≤ 255 → ¬ GammaReaches j g.toNat m) ∧
      (((∃ p, i = .histeq p) ∨ ∃ g, i = .gamma g) →
        lutValidField t.outFmt = true ∧
        (∀ j, 256 ≤ j → t.lutAt j = s.lutAt j) ∧
        ∀ n, 2 ≤ n → n ≠ 8 → t.outFmt.getLsbD n = s.outFmt.getLsbD n) ∧
      ((∀ p, i ≠ .histeq p) → (∀ g, i ≠ .gamma g) → TableFrame s t) ∧
      Delivered (outChans i s) t ∧ CompletionFrame (outChans i s) s t ∧
      t.draws = s.draws + 1 ∧ t.srcHazard = false

/-- R8: the result of a command depends on the latch and on the samples of its input image, and on
nothing else: not on an earlier command, not on the previous DST, LUT or registers. -/
def Obligations.ResultDependsOnLatchAndInputOnly : Prop :=
  ∀ (i : Instr) (s₁ s₂ : State), CompletingUndisturbed i s₁ → CompletingUndisturbed i s₂ →
    s₁.latch = s₂.latch → validate s₁.cap s₁.latch = none →
    (∀ a, a < s₁.inputSamples → s₁.srcAt a = s₂.srcAt a) →
    ∃ t₁ t₂, exec i s₁ = .next t₁ ∧ exec i s₂ = .next t₂ ∧
      outCField t₁.outFmt = outCField t₂.outFmt ∧
      (∀ y x c, s₁.hasPixel y x → c < outChans i s₁ →
        t₁.dstAt (idx s₁.width (outChans i s₁) y x c)
          = t₂.dstAt (idx s₁.width (outChans i s₁) y x c)) ∧
      (((∃ p, i = .histeq p) ∨ ∃ g, i = .gamma g) →
        lutValidField t₁.outFmt = true ∧ lutValidField t₂.outFmt = true ∧
        ∀ j, j < 256 → t₁.lutAt j = t₂.lutAt j)

/-! ### The whole machine -/

/-- The invariant holds after reset. -/
def Obligations.ResetStateMeetsTheInvariant : Prop := State.reset.Inv

/-- Every step keeps the invariant: canonical stores, legal register values, a validated running
command. -/
def Obligations.EveryStepKeepsTheInvariant : Prop :=
  ∀ s t : State, s.Inv → step s = .next t → t.Inv

/-- R169: STATUS.STATE changes only by a host write of CMD while not BUSY (to BUSY if validation
passes, to ERROR if it fails), by the engine's completion (from BUSY to DONE) and by reset (to IDLE);
a CMD write while BUSY leaves it BUSY. -/
def Obligations.StatusStateMovesOnlyAsTabulated : Prop :=
  ∀ s t : State, step s = .next t →
    t.phase = s.phase ∨
    (s.phase ≠ stateBusy ∧ ∃ w rest, s.schedule = .access (.writeReg 0x00 w) :: rest ∧
      ((validate s.cap (latchOf w s) = none ∧ t.phase = stateBusy) ∨
        (validate s.cap (latchOf w s) ≠ none ∧ t.phase = stateError))) ∨
    (s.phase = stateBusy ∧ t.phase = stateDone ∧ t.turn = .engine) ∨
    (t.phase = stateIdle ∧ ∃ rest, s.schedule = .reset :: rest)

/-- R16: an entry of SRC changes only by a host write of that entry, which stores the value written, or
by reset; no command changes any. -/
def Obligations.SourceChangesOnlyByHostWrites : Prop :=
  (∀ (i : Instr) (s t : State), exec i s = .next t → ∀ a, t.srcAt a = s.srcAt a) ∧
  (∀ (s t : State) (a : Nat), step s = .next t →
    t.srcAt a = s.srcAt a ∨
    (∃ v rest, s.schedule = .access (.writeSrc a v) :: rest ∧ a < s.cap ∧ t.srcAt a = v) ∨
    ∃ rest, s.schedule = .reset :: rest)

/-- R17, R18, R15: DST, LUT and LUT_VALID change only in a completion step (BUSY to DONE) or by reset;
LUT_VALID, once set, is cleared only by reset; and no step changes CAP. -/
def Obligations.ResultsChangeOnlyByCompletion : Prop :=
  ∀ s t : State, step s = .next t →
    t.cap = s.cap ∧
    ((∀ rest, s.schedule ≠ .reset :: rest) → lutValidField s.outFmt = true →
      lutValidField t.outFmt = true) ∧
    ((∀ rest, s.schedule ≠ .reset :: rest) → ¬ (s.phase = stateBusy ∧ t.phase = stateDone) →
      (∀ a, t.dstAt a = s.dstAt a) ∧ (∀ i, t.lutAt i = s.lutAt i) ∧
      lutValidField t.outFmt = lutValidField s.outFmt)

/-- R176 says that a running command ends, and gives no bound. The model's choice is the bound (logs 1,
13, 17): the host's moves are a finite schedule, after which, or after a WAIT's polls, the engine moves.
From every legal state in which a command runs, whatever the host still has to do (short of the
accesses the model refuses, log 10), STATE leaves BUSY within as many steps as the schedule has moves
and polls, and one more. -/
def Obligations.RunningCommandEnds : Prop :=
  ∀ s : State, s.Inv → s.busy = true → (∀ e ∈ s.schedule, e.wholeWord = true) →
    ∃ n t, n ≤ scheduleSteps s.schedule + 1 ∧ Steps n s t ∧ t.busy = false

/-! ### The host's accesses -/

/-- R13, R14, R12, R15, R26: a register write in any STATE: IMG_DIM takes the word, IMG_FMT its low two
bits, and a write of STATUS, of OUT_FMT or of a reserved offset is ignored. -/
def Obligations.RegisterWritesStoreWritableFields : Prop :=
  ∀ (s : State) (rest : List Event) (v : Word),
    (s.schedule = .access (.writeReg 0x08 v) :: rest →
      step s = .next { s with schedule := rest, turn := .host, imgDim := v }) ∧
    (s.schedule = .access (.writeReg 0x0C v) :: rest →
      step s = .next { s with schedule := rest, turn := .host, imgFmt := v &&& 3 }) ∧
    (∀ offset, offset = 0x04 ∨ (0x10 ≤ offset ∧ offset % 4 = 0) →
      s.schedule = .access (.writeReg offset v) :: rest →
      step s = .next { s with schedule := rest, turn := .host })

/-- R11 to R15, R26, R46: a register read returns the register and changes nothing else, in any STATE; a
reserved offset returns a free value (log 8). -/
def Obligations.RegisterReadsReturnTheRegister : Prop :=
  ∀ (s : State) (rest : List Event) (offset : Nat) (value : Word),
    s.schedule = .access (.readReg offset) :: rest →
    ((offset = 0x00 ∧ value = s.cmd) ∨ (offset = 0x04 ∧ value = s.status) ∨
      (offset = 0x08 ∧ value = s.imgDim) ∨ (offset = 0x0C ∧ value = s.imgFmt) ∨
      (offset = 0x10 ∧ value = s.outFmt) →
      step s = .next { s with schedule := rest, turn := .host,
                              replies := .word value :: s.replies }) ∧
    (0x14 ≤ offset → offset % 4 = 0 →
      step s = .next { s with schedule := rest, turn := .host, draws := s.draws + 1,
                              replies := .word (Config.readWord s.draws) :: s.replies })

/-- R44: a register access that is not a whole, naturally aligned 32-bit word is refused. -/
def Obligations.NarrowRegisterAccessIsRefused : Prop :=
  ∀ (s : State) (rest : List Event) (offset bytes : Nat) (v : Word),
    (s.schedule = .access (.narrowWrite offset bytes v) :: rest ∨
      s.schedule = .access (.narrowRead offset bytes) :: rest ∨
      (offset % 4 ≠ 0 ∧ s.schedule = .access (.writeReg offset v) :: rest) ∨
      (offset % 4 ≠ 0 ∧ s.schedule = .access (.readReg offset) :: rest)) →
    step s = .refused .registerAccessNotWholeWord

/-- R16, R43, R196: a host write of SRC stores one sample, in any STATE, and marks the running command
disturbed exactly when it falls in its input range; at or above CAP it is ignored; a host write of DST
or LUT is ignored (R17, R18). -/
def Obligations.SampleWritesReachOnlySource : Prop :=
  ∀ (s : State) (rest : List Event) (a : Nat) (v : Byte),
    (s.schedule = .access (.writeSrc a v) :: rest → a < s.cap →
      ∃ t, step s = .next t ∧ t.srcAt a = v ∧ (∀ b, b ≠ a → t.srcAt b = s.srcAt b) ∧
        t.srcHazard = (s.srcHazard || (s.busy && decide (a < s.inputSamples))) ∧
        t = { s with schedule := rest, turn := .host, src := t.src, srcHazard := t.srcHazard }) ∧
    ((s.schedule = .access (.writeSrc a v) :: rest ∧ s.cap ≤ a) ∨
      s.schedule = .access (.writeDst a v) :: rest ∨
      s.schedule = .access (.writeLut a v) :: rest →
      step s = .next { s with schedule := rest, turn := .host })

/-- R16, R17, R18, R43, R46, R197: a sample read returns the entry and changes nothing else: of SRC in
any STATE; of DST unless BUSY; of LUT unless BUSY or LUT_VALID = 0. Otherwise, and out of range, it
returns a free value, a new one each time (log 8), and still changes nothing else. -/
def Obligations.SampleReadsReturnTheEntry : Prop :=
  ∀ (s : State) (rest : List Event) (a : Nat),
    let same := fun v => ({ s with schedule := rest, turn := .host,
                                   replies := .sample v :: s.replies } : State)
    let any := { s with schedule := rest, turn := .host, draws := s.draws + 1,
                        replies := .sample (Config.readSample s.draws) :: s.replies }
    (s.schedule = .access (.readSrc a) :: rest →
      step s = .next (if a < s.cap then same (s.srcAt a) else any)) ∧
    (s.schedule = .access (.readDst a) :: rest →
      step s = .next (if a < s.cap ∧ s.phase ≠ stateBusy then same (s.dstAt a) else any)) ∧
    (s.schedule = .access (.readLut a) :: rest →
      step s = .next
        (if a < 256 ∧ s.phase ≠ stateBusy ∧ s.outFmt.getLsbD 8 = true then same (s.lutAt a)
          else any))

/-- R69 (log 17): WAIT reads STATUS until STATE ≠ BUSY: it ends with the read that does not return BUSY;
while BUSY it stays pending, and each of its polls returns the BUSY word and changes nothing else. -/
def Obligations.WaitPollsStatusUntilNotBusy : Prop :=
  ∀ (s : State) (rest : List Event) (polls : Nat), s.schedule = .wait polls :: rest →
    (s.busy = false →
      step s = .next { s with schedule := rest, turn := .host,
                              replies := .word s.status :: s.replies }) ∧
    (s.busy = true → ∀ n, polls = n + 1 →
      step s = .next { s with schedule := .wait n :: rest, turn := .host,
                              replies := .word s.status :: s.replies })

/-! ### The arithmetic -/

/-- R90, R96: `rnd_div` is (2·n + d) div (2·d), the integer nearest to n/d with ties toward +∞, and
adding 2^(n−1) and shifting by n is the same rounding. -/
def Obligations.RoundingIsToNearestTiesUp : Prop :=
  (∀ (n : Int) (d : Nat), 0 < d →
    rndDiv n d = (2 * n + d) / (2 * d) ∧
    (2 * rndDiv n d - 1) * d ≤ 2 * n ∧ 2 * n < (2 * rndDiv n d + 1) * d) ∧
  (∀ a n : Nat, 1 ≤ n → (roundShift a n : Int) = rndDiv a (2 ^ n))

/-- R91: the saturator clamps to 0..255, is monotone and idempotent. -/
def Obligations.SaturatorClampsToByteRange : Prop :=
  (∀ v : Int, (v < 0 → (sat8 v).toNat = 0) ∧ (255 < v → (sat8 v).toNat = 255) ∧
    (0 ≤ v → v ≤ 255 → ((sat8 v).toNat : Int) = v)) ∧
  (∀ v w : Int, v ≤ w → (sat8 v).toNat ≤ (sat8 w).toNat) ∧
  (∀ v : Int, sat8 ((sat8 v).toNat : Int) = sat8 v)

/-- R83, R84, R85: the luma of a pixel, its properties, and the gray plane of a one-channel and of a
three-channel image. -/
def Obligations.GrayPlaneIsLuma : Prop :=
  (∀ b g r : Byte,
    (luma b g r).toNat = (1868 * b.toNat + 9617 * g.toNat + 4899 * r.toNat + 8192) / 16384) ∧
  (∀ v : Byte, luma v v v = v) ∧
  (∀ b g r b' g' r' : Byte, b ≤ b' → g ≤ g' → r ≤ r' → luma b g r ≤ luma b' g' r') ∧
  (luma 255 0 0 = 29 ∧ luma 0 255 0 = 150 ∧ luma 0 0 255 = 76) ∧
  (∀ (s : State) (y x : Nat),
    (s.latch.c = 1 → s.gray y x = s.srcAt (idx s.width 1 y x 0)) ∧
    (s.latch.c = 3 → s.gray y x = luma (s.srcAt (idx s.width 3 y x 0))
      (s.srcAt (idx s.width 3 y x 1)) (s.srcAt (idx s.width 3 y x 2))))

/-- R47: the border fold is the reflection with the edge pixel repeated: inside the image for every
coordinate, the identity there, of period 2·n, and symmetric about the edge. -/
def Obligations.BorderFoldReflectsAtTheEdge : Prop :=
  ∀ (i : Int) (n : Nat), 1 ≤ n →
    refl i n < n ∧
    (0 ≤ i → i < n → (refl i n : Int) = i) ∧
    refl (i + 2 * n) n = refl i n ∧
    refl (-1 - i) n = refl i n ∧
    refl i n = (if (i % (2 * n)).toNat < n then (i % (2 * n)).toNat
      else 2 * n - 1 - (i % (2 * n)).toNat)

/-- R42, R40: the address of a sample; distinct samples have distinct addresses, all below W·H·C, and
below 2^34 for every geometry the registers can hold. -/
def Obligations.SampleAddressesAreDistinctAndInside : Prop :=
  ∀ w h chans y x c : Nat, y < h → x < w → c < chans →
    idx w chans y x c = (y * w + x) * chans + c ∧
    idx w chans y x c < w * h * chans ∧
    (w ≤ 65535 → h ≤ 65535 → chans ≤ 3 → idx w chans y x c < 2 ^ 34) ∧
    (∀ y' x' c', x' < w → c' < chans → idx w chans y' x' c' = idx w chans y x c →
      y' = y ∧ x' = x ∧ c' = c)

/-- R144: `isqrt` is exact, M is the largest integer with M·M ≤ S·65536, and M is exactly 256·√S when S
is a perfect square. -/
def Obligations.MagnitudeIsTheExactSquareRoot : Prop :=
  (∀ n : Nat, isqrt n * isqrt n ≤ n ∧ n < (isqrt n + 1) * (isqrt n + 1)) ∧
  (∀ (s : State) (y x : Nat),
    s.magnitude y x * s.magnitude y x ≤ s.gradSquared y x * 65536 ∧
    s.gradSquared y x * 65536 < (s.magnitude y x + 1) * (s.magnitude y x + 1) ∧
    ∀ r, s.gradSquared y x = r * r → s.magnitude y x = 256 * r)

/-- R141, R142, R143: the gradients are the two Sobel kernels applied as written to the folded
neighbourhood, with their bounds and those of S and M; an image one pixel wide has GX = 0, one pixel high GY = 0. -/
def Obligations.GradientsAreTheSobelKernels : Prop :=
  ∀ (s : State) (y x : Nat),
    let g := fun (dy dx : Int) =>
      ((s.gray (refl (y + dy) s.height) (refl (x + dx) s.width)).toNat : Int)
    s.gradX y x = -1 * g (-1) (-1) + g (-1) 1 - 2 * g 0 (-1) + 2 * g 0 1 - g 1 (-1) + g 1 1 ∧
    s.gradY y x = -1 * g (-1) (-1) - 2 * g (-1) 0 - g (-1) 1 + g 1 (-1) + 2 * g 1 0 + g 1 1 ∧
    (s.gradSquared y x : Int) = s.gradX y x * s.gradX y x + s.gradY y x * s.gradY y x ∧
    -1020 ≤ s.gradX y x ∧ s.gradX y x ≤ 1020 ∧ -1020 ≤ s.gradY y x ∧ s.gradY y x ≤ 1020 ∧
    s.gradSquared y x ≤ 2080800 ∧ s.magnitude y x ≤ 369279 ∧
    (s.width = 1 → s.gradX y x = 0) ∧ (s.height = 1 → s.gradY y x = 0)

/-- R122: the coefficients of every row of KROM, from its first tap up to the centre tap as the table
lists them; every row has its k coefficients, is symmetric (so the first half is the whole row), rises
strictly to the centre tap, is positive and sums to exactly 65536. -/
def Obligations.KernelRowsAreUnitGainAndSymmetric : Prop :=
  ((List.range 2).map (krom 3) = [15663, 34210] ∧
    (List.range 3).map (krom 5) = [4638, 16021, 24218] ∧
    (List.range 4).map (krom 7) = [1900, 6804, 14626, 18876] ∧
    (List.range 5).map (krom 9) = [973, 3265, 7754, 13030, 15492] ∧
    (List.range 6).map (krom 11) = [578, 1779, 4267, 7972, 11600, 13144] ∧
    (List.range 7).map (krom 13) = [380, 1075, 2516, 4877, 7823, 10388, 11418] ∧
    (List.range 8).map (krom 15) = [269, 704, 1588, 3091, 5187, 7508, 9374, 10094] ∧
    (List.range 9).map (krom 17) = [201, 491, 1064, 2046, 3494, 5297, 7130, 8523, 9044] ∧
    (List.range 10).map (krom 19)
      = [157, 360, 749, 1413, 2417, 3751, 5280, 6740, 7803, 8196] ∧
    (List.range 11).map (krom 21)
      = [126, 275, 550, 1014, 1723, 2700, 3898, 5187, 6361, 7190, 7488]) ∧
  ∀ k ∈ [3, 5, 7, 9, 11, 13, 15, 17, 19, 21],
    (kromRow k).length = k ∧ (kromRow k).sum = 65536 ∧ (kromRow k).reverse = kromRow k ∧
    (∀ c ∈ kromRow k, 0 < c ∧ c < 65536) ∧
    (∀ j, j < k → krom k j = krom k (k - 1 - j)) ∧
    ∀ j, j < (k - 1) / 2 → krom k j < krom k (j + 1)

/-- R124, R125, R126: the horizontal pass followed by the vertical pass, the vertical pass followed by
the horizontal one, and the full two-dimensional convolution give the same V. -/
def Obligations.SeparableBlurEqualsFullConvolution : Prop :=
  ∀ (s : State) (y x c : Nat),
    let src := fun u v => (s.srcAt (idx s.width s.chans (tapCoord s.kernelSize u y s.height)
      (tapCoord s.kernelSize v x s.width) c)).toNat
    s.blurV y x c = s.blurFull y x c ∧
    s.blurV y x c = s.tapSum (fun u => s.tapSum fun v => src u v) ∧
    s.blurV y x c = s.tapSum (fun v => s.tapSum fun u => src u v) ∧
    (∀ j i n, (tapCoord s.kernelSize j i n)
      = refl ((i : Int) + ((j : Int) - ((s.kernelSize - 1) / 2 : Nat))) n)

/-- R128 (a), (b): with a legal kernel every blurred sample lies between the smallest and the largest
sample of its channel; so a constant channel is unchanged. -/
def Obligations.BlurStaysWithinTheChannelRange : Prop :=
  ∀ (s : State) (c lo hi : Nat), s.kernelSize ∈ [3, 5, 7, 9, 11, 13, 15, 17, 19, 21] →
    (∀ y x, s.hasPixel y x →
      lo ≤ (s.srcAt (idx s.width s.chans y x c)).toNat ∧
      (s.srcAt (idx s.width s.chans y x c)).toNat ≤ hi) →
    ∀ y x, s.hasPixel y x → lo ≤ (s.blurred y x c).toNat ∧ (s.blurred y x c).toNat ≤ hi

/-- R128 (c): mirroring the input left-right, or top-bottom, mirrors the blurred image. -/
def Obligations.BlurOfTheMirrorIsTheMirrorOfTheBlur : Prop :=
  ∀ (s m : State) (c : Nat), m.latch = s.latch →
    s.kernelSize ∈ [3, 5, 7, 9, 11, 13, 15, 17, 19, 21] →
    ((∀ y x, s.hasPixel y x → m.srcAt (idx s.width s.chans y x c)
        = s.srcAt (idx s.width s.chans y (s.width - 1 - x) c)) →
      ∀ y x, s.hasPixel y x → m.blurred y x c = s.blurred y (s.width - 1 - x) c) ∧
    ((∀ y x, s.hasPixel y x → m.srcAt (idx s.width s.chans y x c)
        = s.srcAt (idx s.width s.chans (s.height - 1 - y) x c)) →
      ∀ y x, s.hasPixel y x → m.blurred y x c = s.blurred (s.height - 1 - y) x c)

/-- R105 (a), (b), (c): the table HISTEQ publishes is monotone, sends every value at or above the
brightest one present to 255, and so makes a constant image white. -/
def Obligations.HisteqTableIsMonotoneAndReachesWhite : Prop :=
  ∀ (p : Half) (s t : State), CompletingUndisturbed (.histeq p) s → 0 < s.width → 0 < s.height →
    exec (.histeq p) s = .next t →
    (∀ i j, i ≤ j → j < 256 → (t.lutAt i).toNat ≤ (t.lutAt j).toNat) ∧
    (∀ m, (∀ y x, s.hasPixel y x → (s.gray y x).toNat ≤ m) → ∀ i, m ≤ i → i < 256 →
      t.lutAt i = 255) ∧
    (∀ v, (∀ y x, s.hasPixel y x → s.gray y x = v) →
      ∀ y x c, s.hasPixel y x → c < s.chans → t.dstAt (idx s.width s.chans y x c) = 255)

/-- R105 (f): "applying HISTEQ to the output of HISTEQ returns that output unchanged", for a one-channel
and for a three-channel image. -/
def Obligations.HisteqIsIdempotent : Prop :=
  ∀ (p : Half) (s t u v : State), CompletingUndisturbed (.histeq p) s →
    (s.latch.c = 1 ∨ s.latch.c = 3) → exec (.histeq p) s = .next t →
    CompletingUndisturbed (.histeq p) u → u.latch = s.latch →
    (∀ a, a < s.width * s.height * s.chans → u.srcAt a = t.dstAt a) →
    exec (.histeq p) u = .next v →
    ∀ y x c, s.hasPixel y x → c < s.chans →
      v.dstAt (idx s.width s.chans y x c) = t.dstAt (idx s.width s.chans y x c)

/-- R114 (a), (b): with γ = 1 the table is the identity and a one-channel image is copied; for every γ
the ends stay fixed. -/
def Obligations.GammaOneIsIdentityAndEndsAreFixed : Prop :=
  ∀ (g : Half) (s t : State), CompletingUndisturbed (.gamma g) s → 0 < g.toInt →
    exec (.gamma g) s = .next t →
    (t.lutAt 0 = 0 ∧ t.lutAt 255 = 255) ∧
    (g = 256 → (∀ i, i < 256 → (t.lutAt i).toNat = i) ∧
      (s.latch.c = 1 → ∀ y x, s.hasPixel y x →
        t.dstAt (idx s.width 1 y x 0) = s.srcAt (idx s.width 1 y x 0)))

/-- R114 (c), (d): a table entry rises with the intensity and falls with γ; γ ≤ 1 never darkens and
γ ≥ 1 never brightens. -/
def Obligations.GammaEntryIsMonotone : Prop :=
  (∀ i j g : Nat, i ≤ j → j < 256 → 1 ≤ g → gammaEntry i g ≤ gammaEntry j g) ∧
  (∀ i g g' : Nat, i < 256 → 1 ≤ g → g ≤ g' → gammaEntry i g' ≤ gammaEntry i g) ∧
  (∀ i g : Nat, i < 256 → 1 ≤ g → g ≤ 256 → i ≤ (gammaEntry i g).toNat) ∧
  (∀ i g : Nat, i < 256 → 256 ≤ g → (gammaEntry i g).toNat ≤ i)

/-- R146, R147: SOBEL sends the smallest magnitude to 0 and the largest to 255 when they differ, and an
image of one gray value to all 0. -/
def Obligations.SobelSpansTheFullRangeUnlessFlat : Prop :=
  ∀ (p : Half) (s t : State), CompletingUndisturbed (.sobel p) s →
    exec (.sobel p) s = .next t →
    (∀ mmin mmax, s.MagnitudeRange mmin mmax → mmin < mmax →
      ∀ y x c, s.hasPixel y x → c < s.chans →
        (s.magnitude y x = mmin → t.dstAt (idx s.width s.chans y x c) = 0) ∧
        (s.magnitude y x = mmax → t.dstAt (idx s.width s.chans y x c) = 255)) ∧
    (∀ v, (∀ y x, s.hasPixel y x → s.gray y x = v) →
      ∀ y x c, s.hasPixel y x → c < s.chans → t.dstAt (idx s.width s.chans y x c) = 0)

/-- R86, R84 (a): "TOGRAY after GRAY2COLOR returns the original image exactly". -/
def Obligations.TograyUndoesGray2color : Prop :=
  ∀ (p q : Half) (s t u : State), CompletingUndisturbed (.gray2color p) s →
    exec (.gray2color p) s = .next t →
    CompletingUndisturbed (.togray q) u → u.latch.w = s.latch.w → u.latch.h = s.latch.h →
    u.latch.c = 3 → (∀ a, a < 3 * (s.width * s.height) → u.srcAt a = t.dstAt a) →
    ∃ v, exec (.togray q) u = .next v ∧
      ∀ y x, s.hasPixel y x →
        v.dstAt (idx s.width 1 y x 0) = s.srcAt (idx s.width 1 y x 0)

/-! ### The host's procedures -/

/-- R70: APPLY, from any legal state, BUSY or not: its accesses up to its decision run to the end; if
validation refuses the command, it returns the error's code; otherwise it returns the output of the
command on exactly the buffer's samples: what `exec` delivers from a state that latched the buffer and
holds it in SRC. The model's choice (log 19): what APPLY returns is computed from the state in which its
last WAIT has ended, and not from the reads by which the host fetches it. -/
def Obligations.ApplyRunsTheFilterOnTheBuffer : Prop :=
  ∀ (b : PixelBuffer) (id param : Half) (polls₁ polls₂ : Nat) (s : State), s.Inv →
    s.schedule = applySchedule b id param polls₁ polls₂ →
    b.samples.length = b.w.toNat * b.h.toNat * b.c.toNat →
    let l : Latch := { id := id, param := param, w := b.w, h := b.h, c := b.c }
    ∃ n u, Steps n s u ∧ u.schedule = [] ∧ u.latch = l ∧
      (∀ a v, b.samples[a]? = some v → a < s.cap → u.srcAt a = v) ∧
      (∀ e, validate s.cap l = some e → applyResult b u = .error e.code) ∧
      (validate s.cap l = none → ∃ i r t, encode i = param ++ id ∧ CompletingUndisturbed i r ∧
        r.latch = l ∧ (∀ a v, b.samples[a]? = some v → r.srcAt a = v) ∧ exec i r = .next t ∧
        applyResult b u = .ok
          { w := b.w
            h := b.h
            c := outCField t.outFmt
            samples := (List.range (b.w.toNat * b.h.toNat * (outCField t.outFmt).toNat)).map
              t.dstAt })

/-- R71: CHAIN after a command that ended in DONE: the output becomes the input, sample by sample, with
its channel count, and IMG_DIM, DST and LUT stay as they are. The model's choice (log 19): the value of
each WRS is the DST entry of the state in which CHAIN starts, which its RDD returns, since no access of
CHAIN changes DST. -/
def Obligations.ChainMakesTheOutputTheNextInput : Prop :=
  ∀ s : State, s.phase = stateDone → s.schedule = chainSchedule s →
    s.width * s.height * (outCField s.outFmt).toNat ≤ s.cap →
    ∃ n t, Steps n s t ∧ t.schedule = [] ∧
      (∀ a, a < s.width * s.height * (outCField s.outFmt).toNat → t.srcAt a = s.dstAt a) ∧
      channelsField t.imgFmt = outCField s.outFmt ∧ t.imgDim = s.imgDim ∧
      (∀ a, t.dstAt a = s.dstAt a) ∧ (∀ i, t.lutAt i = s.lutAt i) ∧ t.status = s.status

/-! ### The engine at rest -/

/-- R171: the engine is "enabled exactly while STATUS.STATE = BUSY": in any other STATE its move changes
nothing of the block, no register, no latch field and no sample. The model's choice (logs 1, 13): it is
the engine's move at an `engine` event and when nothing is scheduled. -/
def Obligations.EngineAtRestChangesNothing : Prop :=
  ∀ s : State, s.phase ≠ stateBusy →
    (∀ rest, s.schedule = .engine :: rest →
      step s = .next { s with schedule := rest, turn := .engine }) ∧
    (s.schedule = [] → step s = .next { s with turn := .engine })
end

