-- ==== Sys2Proof/Laws/Arithmetic.lean ====
section
/-! SUPPORT. What each arithmetic operation returns, once (41_clamping_saturator.md, 20_memory.md R47,
45_sobel_edge_detector.md R144). -/

namespace Sys2Proof.Machine

/-! ### Clamping and rounding -/

theorem sat8_toInt (v : Int) : ((sat8 v).toNat : Int) = max 0 (min v 255) := by
  unfold sat8
  split
  · simp; omega
  · split
    · simp; omega
    · rw [BitVec.toNat_ofNat, Nat.mod_eq_of_lt (by omega)]
      omega

/-- A value already in range passes the saturator unchanged (R94). -/
theorem sat8_natCast {n : Nat} (h : n ≤ 255) : (sat8 (n : Int)).toNat = n := by
  have := sat8_toInt n
  omega

theorem sat8_mono {v w : Int} (h : v ≤ w) : (sat8 v).toNat ≤ (sat8 w).toNat := by
  have h1 := sat8_toInt v
  have h2 := sat8_toInt w
  omega

theorem rndDiv_natCast (n d : Nat) :
    rndDiv (n : Int) d = (((2 * n + d) / (2 * d) : Nat) : Int) := by
  unfold rndDiv
  push_cast
  rfl

/-- `sat8(rnd_div(n, d))` of a quotient that rounds into range (R92, R94). -/
theorem sat8_rndDiv {n d : Nat} (h : (2 * n + d) / (2 * d) ≤ 255) :
    (sat8 (rndDiv (n : Int) d)).toNat = (2 * n + d) / (2 * d) := by
  rw [rndDiv_natCast, sat8_natCast h]

theorem roundShift_eq (a n : Nat) : roundShift a n = (a + 2 ^ (n - 1)) / 2 ^ n := by
  rw [roundShift, Nat.shiftRight_eq_div_pow]

/-! ### The border fold -/

/-- The fold as a case split on the residue (R47). -/
theorem refl_cases {n : Nat} (i : Int) (hn : 1 ≤ n) :
    ∃ j : Nat, i % (2 * (n : Int)) = j ∧ j < 2 * n ∧
      ((j < n ∧ refl i n = j) ∨ (n ≤ j ∧ refl i n = 2 * n - 1 - j)) := by
  have h0 := Int.emod_nonneg i (show (2 * (n : Int)) ≠ 0 by omega)
  have h1 := Int.emod_lt_of_pos i (show (0 : Int) < 2 * n by omega)
  refine ⟨(i % (2 * (n : Int))).toNat, by omega, by omega, ?_⟩
  unfold refl
  push_cast
  by_cases h : (i % (2 * (n : Int))).toNat < n
  · simp [h]
  · rw [if_neg h]
    exact .inr ⟨by omega, rfl⟩

theorem refl_lt {n : Nat} (i : Int) (hn : 1 ≤ n) : refl i n < n := by
  obtain ⟨j, _, _, ⟨_, h⟩ | ⟨_, h⟩⟩ := refl_cases i hn <;> omega

theorem refl_inside {n : Nat} {i : Nat} (h : i < n) : refl (i : Int) n = i := by
  obtain ⟨j, hj, _, ⟨_, h'⟩ | ⟨_, h'⟩⟩ := refl_cases (i : Int) (show 1 ≤ n by omega)
  · rw [Int.emod_eq_of_lt (by omega) (by omega)] at hj; omega
  · rw [Int.emod_eq_of_lt (by omega) (by omega)] at hj; omega

theorem refl_one (i : Int) : refl i 1 = 0 := by
  have := refl_lt i (le_refl 1)
  omega

/-- The fold does not see a shift by its period. -/
theorem refl_add_period (i k : Int) (n : Nat) : refl (i + 2 * n * k) n = refl i n := by
  unfold refl
  push_cast
  rw [Int.add_mul_emod_self_left]

/-- The fold is symmetric about the edge. -/
theorem refl_reflect (i : Int) {n : Nat} (hn : 1 ≤ n) : refl (-1 - i) n = refl i n := by
  obtain ⟨j, hj, hjn, hr⟩ := refl_cases i hn
  obtain ⟨j', hj', hjn', hr'⟩ := refl_cases (-1 - i) hn
  have hsum : (j' : Int) = 2 * n - 1 - j := by
    have hq := Int.emod_add_mul_ediv i (2 * n)
    have hq' := Int.emod_add_mul_ediv (-1 - i) (2 * n)
    rw [hj] at hq
    rw [hj'] at hq'
    have hk : (2 * (n : Int)) * (i / (2 * n) + (-1 - i) / (2 * n) + 1) = 2 * n - 1 - j - j' := by
      rw [Int.mul_add, Int.mul_add, Int.mul_one]; omega
    have hk0 : i / (2 * (n : Int)) + (-1 - i) / (2 * n) + 1 = 0 := by
      by_contra hne
      rcases Int.lt_or_gt_of_ne hne with hlt | hgt
      · have := Int.mul_le_mul_of_nonneg_left (show i / (2 * (n : Int)) + (-1 - i) / (2 * n) + 1 ≤ -1
          by omega) (show (0 : Int) ≤ 2 * n by omega)
        omega
      · have := Int.mul_le_mul_of_nonneg_left (show (1 : Int) ≤ i / (2 * (n : Int))
          + (-1 - i) / (2 * n) + 1 by omega) (show (0 : Int) ≤ 2 * n by omega)
        omega
    rw [hk0] at hk
    omega
  omega

/-- Reflecting the coordinate about the other edge reflects the folded coordinate. -/
theorem refl_mirror (i : Int) {n : Nat} (hn : 1 ≤ n) : refl (n - 1 - i) n = n - 1 - refl i n := by
  obtain ⟨j, hj, hjn, hr⟩ := refl_cases i hn
  obtain ⟨j', hj', hjn', hr'⟩ := refl_cases (n - 1 - i) hn
  have hd := Int.emod_add_mul_ediv i (2 * n)
  have hd' := Int.emod_add_mul_ediv (n - 1 - i) (2 * n)
  rw [hj] at hd
  rw [hj'] at hd'
  have hk : (2 * (n : Int)) * (i / (2 * n) + (n - 1 - i) / (2 * n)) = n - 1 - j - j' := by
    rw [Int.mul_add]; omega
  have hlo : -1 ≤ i / (2 * (n : Int)) + (n - 1 - i) / (2 * n) := by
    by_contra hne
    have := Int.mul_le_mul_of_nonneg_left (show i / (2 * (n : Int)) + (n - 1 - i) / (2 * n) ≤ -2
      by omega) (show (0 : Int) ≤ 2 * n by omega)
    omega
  have hhi : i / (2 * (n : Int)) + (n - 1 - i) / (2 * n) ≤ 0 := by
    by_contra hne
    have := Int.mul_le_mul_of_nonneg_left (show (1 : Int) ≤ i / (2 * (n : Int))
      + (n - 1 - i) / (2 * n) by omega) (show (0 : Int) ≤ 2 * n by omega)
    omega
  rcases (show i / (2 * (n : Int)) + (n - 1 - i) / (2 * n) = 0 ∨
      i / (2 * (n : Int)) + (n - 1 - i) / (2 * n) = -1 by omega) with h0 | h1
  · rw [h0] at hk; omega
  · rw [h1] at hk; omega

/-! ### The integer square root -/

/-- The bit-by-bit search keeps `root² ≤ n < (root + 2^bits)²` and ends with a gap of one. -/
theorem isqrtBits_spec (n : Nat) (bits root : Nat) (hlo : root * root ≤ n)
    (hhi : n < (root + 2 ^ bits) * (root + 2 ^ bits)) :
    isqrtBits n bits root * isqrtBits n bits root ≤ n ∧
      n < (isqrtBits n bits root + 1) * (isqrtBits n bits root + 1) := by
  induction bits generalizing root with
  | zero => exact ⟨hlo, by simpa [isqrtBits] using hhi⟩
  | succ bits ih =>
    simp only [isqrtBits]
    split
    · rename_i h
      exact ih _ h (by rw [Nat.add_assoc, ← Nat.two_mul, ← Nat.pow_succ']; exact hhi)
    · rename_i h
      exact ih _ hlo (by omega)

theorem lt_isqrt_start (n : Nat) : n < (0 + 2 ^ (n.log2 / 2 + 1)) * (0 + 2 ^ (n.log2 / 2 + 1)) := by
  rw [Nat.zero_add, ← Nat.pow_add]
  calc n < 2 ^ (n.log2 + 1) := Nat.lt_log2_self
    _ ≤ 2 ^ (n.log2 / 2 + 1 + (n.log2 / 2 + 1)) :=
      Nat.pow_le_pow_right (by omega) (by omega)

/-- Two candidates for the square root agree. -/
theorem sqrt_unique {n a b : Nat} (ha : a * a ≤ n) (ha' : n < (a + 1) * (a + 1)) (hb : b * b ≤ n)
    (hb' : n < (b + 1) * (b + 1)) : a = b := by
  have h1 : a < b + 1 := Nat.mul_self_lt_mul_self_iff.mp (Nat.lt_of_le_of_lt ha hb')
  have h2 : b < a + 1 := Nat.mul_self_lt_mul_self_iff.mp (Nat.lt_of_le_of_lt hb ha')
  omega

/-! ### Searches and reductions -/

/-- The search of R111 returns the largest m that satisfies the condition, or 0. -/
theorem largestUpTo_spec (p : Nat → Bool) (bound : Nat) :
    largestUpTo p bound ≤ bound ∧ (largestUpTo p bound = 0 ∨ p (largestUpTo p bound) = true) ∧
      ∀ m, largestUpTo p bound < m → m ≤ bound → p m = false := by
  induction bound with
  | zero => exact ⟨Nat.le_refl 0, .inl rfl, fun m h h' => by omega⟩
  | succ b ih =>
    obtain ⟨h1, h2, h3⟩ := ih
    unfold largestUpTo
    cases hp : p (b + 1)
    · simp only [Bool.false_eq_true, if_false]
      refine ⟨by omega, h2, fun m hm hm' => ?_⟩
      by_cases e : m = b + 1
      · rw [e, hp]
      · exact h3 m hm (by omega)
    · simp only [if_true]
      exact ⟨Nat.le_refl _, .inr hp, fun m h h' => by omega⟩

/-- A level that satisfies the condition is not above the one the search returns. -/
theorem le_largestUpTo {p : Nat → Bool} {bound m : Nat} (hm : m ≤ bound) (h : p m = true) :
    m ≤ largestUpTo p bound := by
  by_contra hlt
  have := (largestUpTo_spec p bound).2.2 m (by omega) hm
  simp [this] at h

theorem foldl_min_spec (l : List Nat) (a : Nat) :
    (∀ m ∈ a :: l, l.foldl min a ≤ m) ∧ l.foldl min a ∈ a :: l := by
  induction l generalizing a with
  | nil => simp
  | cons b l ih =>
    obtain ⟨h1, h2⟩ := ih (min a b)
    simp only [List.foldl_cons]
    constructor
    · intro m hm
      simp only [List.mem_cons] at hm
      have hmin := h1 (min a b) List.mem_cons_self
      rcases hm with rfl | rfl | hm
      · omega
      · omega
      · exact h1 m (List.mem_cons_of_mem _ hm)
    · simp only [List.mem_cons] at h2 ⊢
      rcases h2 with h2 | h2
      · rcases Nat.le_total a b with h | h
        · exact .inl (by omega)
        · exact .inr (.inl (by omega))
      · exact .inr (.inr h2)

/-- `listMin` is the smallest entry. -/
theorem listMin_spec {l : List Nat} (h : l ≠ []) : (∀ m ∈ l, listMin l ≤ m) ∧ listMin l ∈ l := by
  cases l with
  | nil => exact absurd rfl h
  | cons a l => exact foldl_min_spec l a

theorem foldl_max_spec (l : List Nat) (a : Nat) :
    (∀ m ∈ a :: l, m ≤ l.foldl max a) ∧ l.foldl max a ∈ a :: l := by
  induction l generalizing a with
  | nil => simp
  | cons b l ih =>
    obtain ⟨h1, h2⟩ := ih (max a b)
    simp only [List.foldl_cons]
    constructor
    · intro m hm
      simp only [List.mem_cons] at hm
      have hmax := h1 (max a b) List.mem_cons_self
      rcases hm with rfl | rfl | hm
      · omega
      · omega
      · exact h1 m (List.mem_cons_of_mem _ hm)
    · simp only [List.mem_cons] at h2 ⊢
      rcases h2 with h2 | h2
      · rcases Nat.le_total a b with h | h
        · exact .inr (.inl (by omega))
        · exact .inl (by omega)
      · exact .inr (.inr h2)

/-- `listMax` is the largest entry. -/
theorem listMax_spec {l : List Nat} (h : l ≠ []) : (∀ m ∈ l, m ≤ listMax l) ∧ listMax l ∈ l := by
  obtain ⟨h1, h2⟩ := foldl_max_spec l 0
  refine ⟨fun m hm => h1 m (List.mem_cons_of_mem _ hm), ?_⟩
  rcases List.mem_cons.mp h2 with h0 | h0
  · cases l with
    | nil => exact absurd rfl h
    | cons a l =>
      have ha := h1 a (List.mem_cons_of_mem _ List.mem_cons_self)
      unfold listMax
      rw [h0] at ha ⊢
      rw [show a = 0 by omega]
      exact List.mem_cons_self
  · exact h0

/-! ### Sums over taps -/

theorem sumTaps_zero (f : Nat → Nat) : sumTaps 0 f = 0 := rfl

theorem sumTaps_succ (k : Nat) (f : Nat → Nat) : sumTaps (k + 1) f = sumTaps k f + f k := by
  simp [sumTaps, List.range_succ]

theorem sumTaps_congr {k : Nat} {f g : Nat → Nat} (h : ∀ j, j < k → f j = g j) :
    sumTaps k f = sumTaps k g := by
  induction k with
  | zero => rfl
  | succ k ih =>
    rw [sumTaps_succ, sumTaps_succ, ih fun j hj => h j (by omega), h k (by omega)]

theorem sumTaps_le {k : Nat} {f g : Nat → Nat} (h : ∀ j, j < k → f j ≤ g j) :
    sumTaps k f ≤ sumTaps k g := by
  induction k with
  | zero => exact Nat.le_refl _
  | succ k ih =>
    rw [sumTaps_succ, sumTaps_succ]
    have h1 := ih fun j hj => h j (by omega)
    have h2 := h k (by omega)
    omega

theorem sumTaps_add (k : Nat) (f g : Nat → Nat) :
    sumTaps k (fun j => f j + g j) = sumTaps k f + sumTaps k g := by
  induction k with
  | zero => rfl
  | succ k ih => rw [sumTaps_succ, sumTaps_succ, sumTaps_succ, ih]; omega

theorem sumTaps_mul (k a : Nat) (f : Nat → Nat) :
    sumTaps k (fun j => a * f j) = a * sumTaps k f := by
  induction k with
  | zero => simp [sumTaps]
  | succ k ih => rw [sumTaps_succ, sumTaps_succ, ih, Nat.mul_add]

/-- Two sums over taps may be taken in either order (R52). -/
theorem sumTaps_comm (k m : Nat) (f : Nat → Nat → Nat) :
    sumTaps k (fun i => sumTaps m fun j => f i j) = sumTaps m fun j => sumTaps k fun i => f i j := by
  induction k with
  | zero =>
    induction m with
    | zero => rfl
    | succ m ih => rw [sumTaps_succ, ← ih]; rfl
  | succ k ih =>
    rw [sumTaps_succ, ih, ← sumTaps_add]
    exact sumTaps_congr fun j _ => (sumTaps_succ k fun i => f i j).symm

/-- A sum over taps may be taken from the other end. -/
theorem sumTaps_reverse (k : Nat) (f : Nat → Nat) :
    sumTaps k (fun j => f (k - 1 - j)) = sumTaps k f := by
  have hsum : ∀ g : Nat → Nat, sumTaps k g = ∑ j ∈ Finset.range k, g j := fun g => by
    induction k with
    | zero => rfl
    | succ k ih => rw [sumTaps_succ, ih, Finset.sum_range_succ]
  rw [hsum, hsum, Finset.sum_range_reflect f k]

end Sys2Proof.Machine
end

