-- ==== Sys2Proof/Laws/Decode.lean ====
section
/-! SUPPORT. The two fields of a command word (30_encoding.md R61). -/

namespace Sys2Proof

theorem getLsbD_commandWord (param id : Half) (n : Nat) :
    (commandWord param id).getLsbD n
      = if n < 16 then id.getLsbD n else param.getLsbD (n - 16) := by
  unfold commandWord
  rw [BitVec.getLsbD_append]

@[simp] theorem idField_commandWord (param id : Half) : idField (commandWord param id) = id := by
  apply BitVec.eq_of_getLsbD_eq
  intro i hi
  rw [idField, BitVec.getLsbD_extractLsb', getLsbD_commandWord]
  simp [hi]

@[simp] theorem paramField_commandWord (param id : Half) :
    paramField (commandWord param id) = param := by
  apply BitVec.eq_of_getLsbD_eq
  intro i hi
  rw [paramField, BitVec.getLsbD_extractLsb', getLsbD_commandWord]
  simp [hi]

/-- A word is its two fields. -/
theorem commandWord_fields (w : Word) : commandWord (paramField w) (idField w) = w := by
  apply BitVec.eq_of_getLsbD_eq
  intro i hi
  rw [getLsbD_commandWord]
  split
  · rename_i h; simp [idField, h]
  · rename_i h
    simp [paramField, show i - 16 < 16 by omega, show 16 + (i - 16) = i by omega]

theorem idField_encode (i : Instr) : idField (encode i) = i.id := idField_commandWord _ _

theorem paramField_encode (i : Instr) : paramField (encode i) = i.param :=
  paramField_commandWord _ _

/-- A word whose fields are a command's is that command's encoding. -/
theorem encode_eq_of_fields {i : Instr} {w : Word} (hid : i.id = idField w)
    (hparam : i.param = paramField w) : encode i = w := by
  rw [encode, hid, hparam, commandWord_fields]

/-- One row of the decoder's table: the word has the row's identifier, or the next row decides. -/
theorem row_cases {row : Prop} [Decidable row] {a : Instr}
    {next result : Except DecodeRefusal Instr} (h : (if row then .ok a else next) = result) :
    (row ∧ result = .ok a) ∨ (¬ row ∧ next = result) := by
  by_cases hr : row
  · rw [if_pos hr] at h; exact .inl ⟨hr, h.symm⟩
  · rw [if_neg hr] at h; exact .inr ⟨hr, h⟩

/-- The decoder reads the identifier and PARAM of the word, and nothing else. -/
theorem fields_of_decode {w : Word} {i : Instr} (h : decode w = .ok i) :
    i.id = idField w ∧ i.param = paramField w := by
  unfold decode at h
  dsimp only at h
  generalize idField w = id at h ⊢
  iterate 12
    rcases row_cases h with ⟨hid, hi⟩ | ⟨hid, h⟩
    · cases hi; exact ⟨hid.symm, rfl⟩
    clear hid
  cases h

/-- A word that is no row of the table has none of the twelve identifiers. -/
theorem id_of_decode_error {w : Word} {r : DecodeRefusal} (h : decode w = .error r) :
    r = .unassigned (idField w) ∧ ∀ i : Instr, i.id ≠ idField w := by
  unfold decode at h
  dsimp only at h
  generalize idField w = id at h ⊢
  iterate 12
    rcases row_cases h with ⟨_, hi⟩ | ⟨hid, h⟩
    · cases hi
    revert hid
  cases h
  intros
  refine ⟨rfl, fun i => ?_⟩
  cases i <;> exact fun e => absurd e.symm ‹_›

end Sys2Proof
end

