-- ==== Sys2Proof/Laws/Flags.lean ====
section
/-! SUPPORT. The register fields: what each field write sets and what it keeps (10_state.md R12 to R15). -/

namespace Sys2Proof.Machine

theorem getLsbD_setStateField (status : Word) (v : BitVec 2) (n : Nat) :
    (setStateField status v).getLsbD n = if n < 2 then v.getLsbD n else status.getLsbD n := by
  unfold setStateField
  rw [BitVec.getLsbD_append]
  split
  · rfl
  · rename_i h
    rw [BitVec.getLsbD_extractLsb', show 2 + (n - 2) = n by omega]
    by_cases h32 : n < 32
    · simp [show n - 2 < 30 by omega]
    · simp [BitVec.getLsbD_of_ge status n (by omega)]

theorem getLsbD_setErrField (status : Word) (v : BitVec 2) (n : Nat) :
    (setErrField status v).getLsbD n
      = if 4 ≤ n ∧ n < 6 then v.getLsbD (n - 4) else status.getLsbD n := by
  unfold setErrField
  rw [BitVec.getLsbD_append]
  split
  · rename_i h
    rw [BitVec.getLsbD_extractLsb', Nat.zero_add, if_neg (by omega)]
    simp [h]
  · rename_i h
    rw [BitVec.getLsbD_append]
    by_cases h6 : n < 6
    · rw [if_pos (by omega), if_pos (by omega)]
    · rw [if_neg (by omega), if_neg (by omega), BitVec.getLsbD_extractLsb',
        show 6 + (n - 4 - 2) = n by omega]
      by_cases h32 : n < 32
      · simp [show n - 4 - 2 < 26 by omega]
      · simp [BitVec.getLsbD_of_ge status n (by omega)]

theorem getLsbD_setOutCField (outFmt : Word) (v : BitVec 2) (n : Nat) :
    (setOutCField outFmt v).getLsbD n = if n < 2 then v.getLsbD n else outFmt.getLsbD n :=
  getLsbD_setStateField outFmt v n

theorem getLsbD_setLutValidField (outFmt : Word) (n : Nat) :
    (setLutValidField outFmt).getLsbD n = if n = 8 then true else outFmt.getLsbD n := by
  unfold setLutValidField
  rw [BitVec.getLsbD_append]
  split
  · rename_i h
    rw [BitVec.getLsbD_extractLsb', Nat.zero_add, if_neg (by omega)]
    simp [h]
  · rename_i h
    rw [BitVec.getLsbD_append]
    by_cases h8 : n = 8
    · subst h8; simp
    · rw [if_neg (by omega), if_neg h8, BitVec.getLsbD_extractLsb',
        show 9 + (n - 8 - 1) = n by omega]
      by_cases h32 : n < 32
      · simp [show n - 8 - 1 < 23 by omega]
      · simp [BitVec.getLsbD_of_ge outFmt n (by omega)]

theorem stateField_eq_of_bits {a b : Word} (h : ∀ n, n < 2 → a.getLsbD n = b.getLsbD n) :
    stateField a = stateField b := by
  apply BitVec.eq_of_getLsbD_eq
  intro i hi
  simp [stateField, hi, h i hi]

theorem errField_eq_of_bits {a b : Word}
    (h : ∀ n, 4 ≤ n → n < 6 → a.getLsbD n = b.getLsbD n) : errField a = errField b := by
  apply BitVec.eq_of_getLsbD_eq
  intro i hi
  simp [errField, hi, h (4 + i) (by omega) (by omega)]

@[simp] theorem stateField_setStateField (status : Word) (v : BitVec 2) :
    stateField (setStateField status v) = v := by
  apply BitVec.eq_of_getLsbD_eq
  intro i hi
  simp [stateField, getLsbD_setStateField, hi]

@[simp] theorem errField_setStateField (status : Word) (v : BitVec 2) :
    errField (setStateField status v) = errField status :=
  errField_eq_of_bits fun n h _ => by rw [getLsbD_setStateField, if_neg (by omega)]

@[simp] theorem errField_setErrField (status : Word) (v : BitVec 2) :
    errField (setErrField status v) = v := by
  apply BitVec.eq_of_getLsbD_eq
  intro i hi
  simp [errField, getLsbD_setErrField, show 4 + i < 6 by omega, hi]

@[simp] theorem stateField_setErrField (status : Word) (v : BitVec 2) :
    stateField (setErrField status v) = stateField status :=
  stateField_eq_of_bits fun n h => by rw [getLsbD_setErrField, if_neg (by omega)]

@[simp] theorem outCField_setOutCField (outFmt : Word) (v : BitVec 2) :
    outCField (setOutCField outFmt v) = v := stateField_setStateField outFmt v

@[simp] theorem outCField_setLutValidField (outFmt : Word) :
    outCField (setLutValidField outFmt) = outCField outFmt :=
  stateField_eq_of_bits fun n h => by rw [getLsbD_setLutValidField, if_neg (by omega)]

@[simp] theorem lutValidField_setOutCField (outFmt : Word) (v : BitVec 2) :
    lutValidField (setOutCField outFmt v) = lutValidField outFmt := by
  unfold lutValidField
  rw [getLsbD_setOutCField, if_neg (by omega)]

@[simp] theorem lutValidField_setLutValidField (outFmt : Word) :
    lutValidField (setLutValidField outFmt) = true := by
  simp [lutValidField, getLsbD_setLutValidField]

@[simp] theorem channelsField_imgFmtStored (v : Word) :
    channelsField (imgFmtStored v) = channelsField v := by
  apply BitVec.eq_of_getLsbD_eq
  intro i hi
  simp [channelsField, imgFmtStored, hi, show i < 32 by omega]

/-- A word whose bits outside a set are all zero, as the mask says it. -/
theorem and_eq_zero_iff (w mask : Word) :
    w &&& mask = 0 ↔ ∀ n, mask.getLsbD n = true → w.getLsbD n = false := by
  constructor
  · intro h n hm
    have := congrArg (fun v : Word => v.getLsbD n) h
    simpa [hm] using this
  · intro h
    apply BitVec.eq_of_getLsbD_eq
    intro n _
    by_cases hm : mask.getLsbD n = true
    · simp [h n hm]
    · simp [Bool.eq_false_iff.mpr hm]

theorem lt_of_getLsbD {w : Word} {n : Nat} (h : w.getLsbD n = true) : n < 32 := by
  by_contra hn
  rw [BitVec.getLsbD_of_ge _ _ (by omega)] at h
  cases h

/-- The reserved bits of STATUS are those outside STATE and ERR (R12). -/
theorem statusReserved_iff (status : Word) : status &&& 0xFFFFFFCC = 0 ↔
    ∀ n, (2 ≤ n ∧ n < 4) ∨ 6 ≤ n → status.getLsbD n = false := by
  have hm : ∀ n < 32, (0xFFFFFFCC : Word).getLsbD n = true ↔ (2 ≤ n ∧ n < 4) ∨ 6 ≤ n := by decide
  rw [and_eq_zero_iff]
  refine ⟨fun h n hn => ?_, fun h n hn => h n ((hm n (lt_of_getLsbD hn)).mp hn)⟩
  by_cases h32 : n < 32
  · exact h n ((hm n h32).mpr hn)
  · exact BitVec.getLsbD_of_ge _ _ (by omega)

/-- A write of STATE and ERR leaves the reserved bits of STATUS zero. -/
theorem statusReserved_set {status : Word} (h : status &&& 0xFFFFFFCC = 0) (err state : BitVec 2) :
    setStateField (setErrField status err) state &&& 0xFFFFFFCC = 0 := by
  rw [statusReserved_iff] at h ⊢
  intro n hn
  rw [getLsbD_setStateField, if_neg (by omega), getLsbD_setErrField, if_neg (by omega), h n hn]

theorem statusReserved_setState {status : Word} (h : status &&& 0xFFFFFFCC = 0) (state : BitVec 2) :
    setStateField status state &&& 0xFFFFFFCC = 0 := by
  rw [statusReserved_iff] at h ⊢
  intro n hn
  rw [getLsbD_setStateField, if_neg (by omega), h n hn]

/-- The reserved bits of OUT_FMT are those outside OUT_C and LUT_VALID (R15). -/
theorem outFmtReserved_iff (outFmt : Word) : outFmt &&& 0xFFFFFEFC = 0 ↔
    ∀ n, 2 ≤ n → n ≠ 8 → outFmt.getLsbD n = false := by
  have hm : ∀ n < 32, (0xFFFFFEFC : Word).getLsbD n = true ↔ 2 ≤ n ∧ n ≠ 8 := by decide
  rw [and_eq_zero_iff]
  refine ⟨fun h n h2 h8 => ?_, fun h n hn => h n ((hm n (lt_of_getLsbD hn)).mp hn).1
    ((hm n (lt_of_getLsbD hn)).mp hn).2⟩
  by_cases h32 : n < 32
  · exact h n ((hm n h32).mpr ⟨h2, h8⟩)
  · exact BitVec.getLsbD_of_ge _ _ (by omega)

theorem outFmtReserved_setOutC {outFmt : Word} (h : outFmt &&& 0xFFFFFEFC = 0) (v : BitVec 2) :
    setOutCField outFmt v &&& 0xFFFFFEFC = 0 := by
  rw [outFmtReserved_iff] at h ⊢
  intro n h2 h8
  rw [getLsbD_setOutCField, if_neg (by omega), h n h2 h8]

theorem outFmtReserved_setLutValid {outFmt : Word} (h : outFmt &&& 0xFFFFFEFC = 0) :
    setLutValidField outFmt &&& 0xFFFFFEFC = 0 := by
  rw [outFmtReserved_iff] at h ⊢
  intro n h2 h8
  rw [getLsbD_setLutValidField, if_neg h8, h n h2 h8]

/-- A write of IMG_FMT stores the two bits of C (R14). -/
theorem imgFmtStored_eq (v : Word) : imgFmtStored v = v &&& 3 := by
  have h3 : ∀ i < 32, (3 : Word).getLsbD i = decide (i < 2) := by decide
  apply BitVec.eq_of_getLsbD_eq
  intro i hi
  rw [BitVec.getLsbD_and, h3 i hi]
  simp [imgFmtStored, channelsField, hi, Bool.and_comm]

theorem imgFmtReserved_stored (v : Word) : imgFmtStored v &&& 0xFFFFFFFC = 0 := by
  rw [imgFmtStored_eq, BitVec.and_assoc, show (3 : Word) &&& 0xFFFFFFFC = 0 by decide]
  exact BitVec.and_zero

end Sys2Proof.Machine
end

