-- ==== Sys2Proof/Laws/State.lean ====
section
/-! SUPPORT. What each update of the state does to each field, by definition, so that no later proof
unfolds a record update. -/

namespace Sys2Proof.Machine

@[simp] theorem latchCommand_cmd (w : Word) (s : State) :
    (latchCommand w s).cmd = w := rfl
@[simp] theorem latchCommand_status (w : Word) (s : State) :
    (latchCommand w s).status = s.status := rfl
@[simp] theorem latchCommand_imgDim (w : Word) (s : State) :
    (latchCommand w s).imgDim = s.imgDim := rfl
@[simp] theorem latchCommand_imgFmt (w : Word) (s : State) :
    (latchCommand w s).imgFmt = s.imgFmt := rfl
@[simp] theorem latchCommand_outFmt (w : Word) (s : State) :
    (latchCommand w s).outFmt = setOutCField s.outFmt 0 := rfl
@[simp] theorem latchCommand_latch (w : Word) (s : State) :
    (latchCommand w s).latch = latchOf w s := rfl
@[simp] theorem latchCommand_src (w : Word) (s : State) :
    (latchCommand w s).src = s.src := rfl
@[simp] theorem latchCommand_dst (w : Word) (s : State) :
    (latchCommand w s).dst = s.dst := rfl
@[simp] theorem latchCommand_lut (w : Word) (s : State) :
    (latchCommand w s).lut = s.lut := rfl
@[simp] theorem latchCommand_cap (w : Word) (s : State) :
    (latchCommand w s).cap = s.cap := rfl
@[simp] theorem latchCommand_turn (w : Word) (s : State) :
    (latchCommand w s).turn = s.turn := rfl
@[simp] theorem latchCommand_schedule (w : Word) (s : State) :
    (latchCommand w s).schedule = s.schedule := rfl
@[simp] theorem latchCommand_replies (w : Word) (s : State) :
    (latchCommand w s).replies = s.replies := rfl
@[simp] theorem latchCommand_srcHazard (w : Word) (s : State) :
    (latchCommand w s).srcHazard = s.srcHazard := rfl
@[simp] theorem latchCommand_epoch (w : Word) (s : State) :
    (latchCommand w s).epoch = s.epoch := rfl
@[simp] theorem latchCommand_draws (w : Word) (s : State) :
    (latchCommand w s).draws = s.draws := rfl

@[simp] theorem raiseError_cmd (e : ErrorKind) (s : State) : (raiseError e s).cmd = s.cmd := rfl
@[simp] theorem raiseError_status (e : ErrorKind) (s : State) :
    (raiseError e s).status = setStateField (setErrField s.status e.code) stateError := rfl
@[simp] theorem raiseError_imgDim (e : ErrorKind) (s : State) :
    (raiseError e s).imgDim = s.imgDim := rfl
@[simp] theorem raiseError_imgFmt (e : ErrorKind) (s : State) :
    (raiseError e s).imgFmt = s.imgFmt := rfl
@[simp] theorem raiseError_outFmt (e : ErrorKind) (s : State) :
    (raiseError e s).outFmt = s.outFmt := rfl
@[simp] theorem raiseError_latch (e : ErrorKind) (s : State) :
    (raiseError e s).latch = s.latch := rfl
@[simp] theorem raiseError_src (e : ErrorKind) (s : State) : (raiseError e s).src = s.src := rfl
@[simp] theorem raiseError_dst (e : ErrorKind) (s : State) : (raiseError e s).dst = s.dst := rfl
@[simp] theorem raiseError_lut (e : ErrorKind) (s : State) : (raiseError e s).lut = s.lut := rfl
@[simp] theorem raiseError_cap (e : ErrorKind) (s : State) : (raiseError e s).cap = s.cap := rfl
@[simp] theorem raiseError_turn (e : ErrorKind) (s : State) : (raiseError e s).turn = s.turn := rfl
@[simp] theorem raiseError_schedule (e : ErrorKind) (s : State) :
    (raiseError e s).schedule = s.schedule := rfl
@[simp] theorem raiseError_replies (e : ErrorKind) (s : State) :
    (raiseError e s).replies = s.replies := rfl
@[simp] theorem raiseError_srcHazard (e : ErrorKind) (s : State) :
    (raiseError e s).srcHazard = s.srcHazard := rfl
@[simp] theorem raiseError_epoch (e : ErrorKind) (s : State) :
    (raiseError e s).epoch = s.epoch := rfl
@[simp] theorem raiseError_draws (e : ErrorKind) (s : State) :
    (raiseError e s).draws = s.draws := rfl

@[simp] theorem acceptLaunch_cmd (s : State) : (acceptLaunch s).cmd = s.cmd := rfl
@[simp] theorem acceptLaunch_status (s : State) :
    (acceptLaunch s).status = setStateField (setErrField s.status 0) stateBusy := rfl
@[simp] theorem acceptLaunch_imgDim (s : State) : (acceptLaunch s).imgDim = s.imgDim := rfl
@[simp] theorem acceptLaunch_imgFmt (s : State) : (acceptLaunch s).imgFmt = s.imgFmt := rfl
@[simp] theorem acceptLaunch_outFmt (s : State) : (acceptLaunch s).outFmt = s.outFmt := rfl
@[simp] theorem acceptLaunch_latch (s : State) : (acceptLaunch s).latch = s.latch := rfl
@[simp] theorem acceptLaunch_src (s : State) : (acceptLaunch s).src = s.src := rfl
@[simp] theorem acceptLaunch_dst (s : State) : (acceptLaunch s).dst = s.dst := rfl
@[simp] theorem acceptLaunch_lut (s : State) : (acceptLaunch s).lut = s.lut := rfl
@[simp] theorem acceptLaunch_cap (s : State) : (acceptLaunch s).cap = s.cap := rfl
@[simp] theorem acceptLaunch_turn (s : State) : (acceptLaunch s).turn = s.turn := rfl
@[simp] theorem acceptLaunch_schedule (s : State) : (acceptLaunch s).schedule = s.schedule := rfl
@[simp] theorem acceptLaunch_replies (s : State) : (acceptLaunch s).replies = s.replies := rfl
@[simp] theorem acceptLaunch_srcHazard (s : State) : (acceptLaunch s).srcHazard = false := rfl
@[simp] theorem acceptLaunch_epoch (s : State) : (acceptLaunch s).epoch = s.epoch := rfl
@[simp] theorem acceptLaunch_draws (s : State) : (acceptLaunch s).draws = s.draws := rfl

@[simp] theorem deliver_cmd (cOut : BitVec 2) (f : Nat → Nat → Nat → Byte) (s : State) :
    (deliver cOut f s).cmd = s.cmd := rfl
@[simp] theorem deliver_status (cOut : BitVec 2) (f : Nat → Nat → Nat → Byte) (s : State) :
    (deliver cOut f s).status = setStateField s.status stateDone := rfl
@[simp] theorem deliver_imgDim (cOut : BitVec 2) (f : Nat → Nat → Nat → Byte) (s : State) :
    (deliver cOut f s).imgDim = s.imgDim := rfl
@[simp] theorem deliver_imgFmt (cOut : BitVec 2) (f : Nat → Nat → Nat → Byte) (s : State) :
    (deliver cOut f s).imgFmt = s.imgFmt := rfl
@[simp] theorem deliver_outFmt (cOut : BitVec 2) (f : Nat → Nat → Nat → Byte) (s : State) :
    (deliver cOut f s).outFmt = setOutCField s.outFmt cOut := rfl
@[simp] theorem deliver_latch (cOut : BitVec 2) (f : Nat → Nat → Nat → Byte) (s : State) :
    (deliver cOut f s).latch = s.latch := rfl
@[simp] theorem deliver_src (cOut : BitVec 2) (f : Nat → Nat → Nat → Byte) (s : State) :
    (deliver cOut f s).src = s.src := rfl
@[simp] theorem deliver_dst (cOut : BitVec 2) (f : Nat → Nat → Nat → Byte) (s : State) :
    (deliver cOut f s).dst = storeImage s.width s.height cOut.toNat
      (fun y x c => s.settled .dst (idx s.width cOut.toNat y x c) (f y x c)) s.dst := rfl
@[simp] theorem deliver_lut (cOut : BitVec 2) (f : Nat → Nat → Nat → Byte) (s : State) :
    (deliver cOut f s).lut = s.lut := rfl
@[simp] theorem deliver_cap (cOut : BitVec 2) (f : Nat → Nat → Nat → Byte) (s : State) :
    (deliver cOut f s).cap = s.cap := rfl
@[simp] theorem deliver_turn (cOut : BitVec 2) (f : Nat → Nat → Nat → Byte) (s : State) :
    (deliver cOut f s).turn = s.turn := rfl
@[simp] theorem deliver_schedule (cOut : BitVec 2) (f : Nat → Nat → Nat → Byte) (s : State) :
    (deliver cOut f s).schedule = s.schedule := rfl
@[simp] theorem deliver_replies (cOut : BitVec 2) (f : Nat → Nat → Nat → Byte) (s : State) :
    (deliver cOut f s).replies = s.replies := rfl
@[simp] theorem deliver_srcHazard (cOut : BitVec 2) (f : Nat → Nat → Nat → Byte) (s : State) :
    (deliver cOut f s).srcHazard = false := rfl
@[simp] theorem deliver_epoch (cOut : BitVec 2) (f : Nat → Nat → Nat → Byte) (s : State) :
    (deliver cOut f s).epoch = s.epoch := rfl
@[simp] theorem deliver_draws (cOut : BitVec 2) (f : Nat → Nat → Nat → Byte) (s : State) :
    (deliver cOut f s).draws = if s.srcHazard then s.draws + 1 else s.draws := rfl

@[simp] theorem publishTable_cmd (f : Nat → Byte) (s : State) :
    (publishTable f s).cmd = s.cmd := rfl
@[simp] theorem publishTable_status (f : Nat → Byte) (s : State) :
    (publishTable f s).status = s.status := rfl
@[simp] theorem publishTable_imgDim (f : Nat → Byte) (s : State) :
    (publishTable f s).imgDim = s.imgDim := rfl
@[simp] theorem publishTable_imgFmt (f : Nat → Byte) (s : State) :
    (publishTable f s).imgFmt = s.imgFmt := rfl
@[simp] theorem publishTable_outFmt (f : Nat → Byte) (s : State) :
    (publishTable f s).outFmt = setLutValidField s.outFmt := rfl
@[simp] theorem publishTable_latch (f : Nat → Byte) (s : State) :
    (publishTable f s).latch = s.latch := rfl
@[simp] theorem publishTable_src (f : Nat → Byte) (s : State) :
    (publishTable f s).src = s.src := rfl
@[simp] theorem publishTable_dst (f : Nat → Byte) (s : State) :
    (publishTable f s).dst = s.dst := rfl
@[simp] theorem publishTable_lut (f : Nat → Byte) (s : State) :
    (publishTable f s).lut = storeTable f s.lut := by dsimp only [publishTable]
@[simp] theorem publishTable_cap (f : Nat → Byte) (s : State) :
    (publishTable f s).cap = s.cap := rfl
@[simp] theorem publishTable_turn (f : Nat → Byte) (s : State) :
    (publishTable f s).turn = s.turn := rfl
@[simp] theorem publishTable_schedule (f : Nat → Byte) (s : State) :
    (publishTable f s).schedule = s.schedule := rfl
@[simp] theorem publishTable_replies (f : Nat → Byte) (s : State) :
    (publishTable f s).replies = s.replies := rfl
@[simp] theorem publishTable_srcHazard (f : Nat → Byte) (s : State) :
    (publishTable f s).srcHazard = s.srcHazard := rfl
@[simp] theorem publishTable_epoch (f : Nat → Byte) (s : State) :
    (publishTable f s).epoch = s.epoch := rfl
@[simp] theorem publishTable_draws (f : Nat → Byte) (s : State) :
    (publishTable f s).draws = s.draws := rfl

@[simp] theorem assertReset_cmd (s : State) : (assertReset s).cmd = 0 := rfl
@[simp] theorem assertReset_status (s : State) : (assertReset s).status = 0 := rfl
@[simp] theorem assertReset_imgDim (s : State) : (assertReset s).imgDim = 0 := rfl
@[simp] theorem assertReset_imgFmt (s : State) : (assertReset s).imgFmt = 0 := rfl
@[simp] theorem assertReset_outFmt (s : State) : (assertReset s).outFmt = 0 := rfl
@[simp] theorem assertReset_latch (s : State) :
    (assertReset s).latch = Latch.afterReset s.draws := rfl
@[simp] theorem assertReset_src (s : State) : (assertReset s).src = [] := rfl
@[simp] theorem assertReset_dst (s : State) : (assertReset s).dst = [] := rfl
@[simp] theorem assertReset_lut (s : State) : (assertReset s).lut = [] := rfl
@[simp] theorem assertReset_cap (s : State) : (assertReset s).cap = s.cap := rfl
@[simp] theorem assertReset_turn (s : State) : (assertReset s).turn = s.turn := rfl
@[simp] theorem assertReset_schedule (s : State) : (assertReset s).schedule = s.schedule := rfl
@[simp] theorem assertReset_replies (s : State) : (assertReset s).replies = s.replies := rfl
@[simp] theorem assertReset_srcHazard (s : State) : (assertReset s).srcHazard = false := rfl
@[simp] theorem assertReset_epoch (s : State) : (assertReset s).epoch = s.draws := rfl
@[simp] theorem assertReset_draws (s : State) : (assertReset s).draws = s.draws + 1 := rfl

@[simp] theorem reply_cmd (r : Reply) (s : State) : (reply r s).cmd = s.cmd := rfl
@[simp] theorem reply_status (r : Reply) (s : State) : (reply r s).status = s.status := rfl
@[simp] theorem reply_imgDim (r : Reply) (s : State) : (reply r s).imgDim = s.imgDim := rfl
@[simp] theorem reply_imgFmt (r : Reply) (s : State) : (reply r s).imgFmt = s.imgFmt := rfl
@[simp] theorem reply_outFmt (r : Reply) (s : State) : (reply r s).outFmt = s.outFmt := rfl
@[simp] theorem reply_latch (r : Reply) (s : State) : (reply r s).latch = s.latch := rfl
@[simp] theorem reply_src (r : Reply) (s : State) : (reply r s).src = s.src := rfl
@[simp] theorem reply_dst (r : Reply) (s : State) : (reply r s).dst = s.dst := rfl
@[simp] theorem reply_lut (r : Reply) (s : State) : (reply r s).lut = s.lut := rfl
@[simp] theorem reply_cap (r : Reply) (s : State) : (reply r s).cap = s.cap := rfl
@[simp] theorem reply_turn (r : Reply) (s : State) : (reply r s).turn = s.turn := rfl
@[simp] theorem reply_schedule (r : Reply) (s : State) : (reply r s).schedule = s.schedule := rfl
@[simp] theorem reply_replies (r : Reply) (s : State) : (reply r s).replies = r :: s.replies := rfl
@[simp] theorem reply_srcHazard (r : Reply) (s : State) : (reply r s).srcHazard = s.srcHazard := rfl
@[simp] theorem reply_epoch (r : Reply) (s : State) : (reply r s).epoch = s.epoch := rfl
@[simp] theorem reply_draws (r : Reply) (s : State) : (reply r s).draws = s.draws := rfl

@[simp] theorem replyAnyWord_cmd (s : State) : (replyAnyWord s).cmd = s.cmd := rfl
@[simp] theorem replyAnyWord_status (s : State) : (replyAnyWord s).status = s.status := rfl
@[simp] theorem replyAnyWord_imgDim (s : State) : (replyAnyWord s).imgDim = s.imgDim := rfl
@[simp] theorem replyAnyWord_imgFmt (s : State) : (replyAnyWord s).imgFmt = s.imgFmt := rfl
@[simp] theorem replyAnyWord_outFmt (s : State) : (replyAnyWord s).outFmt = s.outFmt := rfl
@[simp] theorem replyAnyWord_latch (s : State) : (replyAnyWord s).latch = s.latch := rfl
@[simp] theorem replyAnyWord_src (s : State) : (replyAnyWord s).src = s.src := rfl
@[simp] theorem replyAnyWord_dst (s : State) : (replyAnyWord s).dst = s.dst := rfl
@[simp] theorem replyAnyWord_lut (s : State) : (replyAnyWord s).lut = s.lut := rfl
@[simp] theorem replyAnyWord_cap (s : State) : (replyAnyWord s).cap = s.cap := rfl
@[simp] theorem replyAnyWord_turn (s : State) : (replyAnyWord s).turn = s.turn := rfl
@[simp] theorem replyAnyWord_schedule (s : State) : (replyAnyWord s).schedule = s.schedule := rfl
@[simp] theorem replyAnyWord_replies (s : State) :
    (replyAnyWord s).replies = .word (Config.readWord s.draws) :: s.replies := rfl
@[simp] theorem replyAnyWord_srcHazard (s : State) : (replyAnyWord s).srcHazard = s.srcHazard := rfl
@[simp] theorem replyAnyWord_epoch (s : State) : (replyAnyWord s).epoch = s.epoch := rfl
@[simp] theorem replyAnyWord_draws (s : State) : (replyAnyWord s).draws = s.draws + 1 := rfl

@[simp] theorem replyAnySample_cmd (s : State) : (replyAnySample s).cmd = s.cmd := rfl
@[simp] theorem replyAnySample_status (s : State) : (replyAnySample s).status = s.status := rfl
@[simp] theorem replyAnySample_imgDim (s : State) : (replyAnySample s).imgDim = s.imgDim := rfl
@[simp] theorem replyAnySample_imgFmt (s : State) : (replyAnySample s).imgFmt = s.imgFmt := rfl
@[simp] theorem replyAnySample_outFmt (s : State) : (replyAnySample s).outFmt = s.outFmt := rfl
@[simp] theorem replyAnySample_latch (s : State) : (replyAnySample s).latch = s.latch := rfl
@[simp] theorem replyAnySample_src (s : State) : (replyAnySample s).src = s.src := rfl
@[simp] theorem replyAnySample_dst (s : State) : (replyAnySample s).dst = s.dst := rfl
@[simp] theorem replyAnySample_lut (s : State) : (replyAnySample s).lut = s.lut := rfl
@[simp] theorem replyAnySample_cap (s : State) : (replyAnySample s).cap = s.cap := rfl
@[simp] theorem replyAnySample_turn (s : State) : (replyAnySample s).turn = s.turn := rfl
@[simp] theorem replyAnySample_schedule (s : State) :
    (replyAnySample s).schedule = s.schedule := rfl
@[simp] theorem replyAnySample_replies (s : State) :
    (replyAnySample s).replies = .sample (Config.readSample s.draws) :: s.replies := rfl
@[simp] theorem replyAnySample_srcHazard (s : State) :
    (replyAnySample s).srcHazard = s.srcHazard := rfl
@[simp] theorem replyAnySample_epoch (s : State) : (replyAnySample s).epoch = s.epoch := rfl
@[simp] theorem replyAnySample_draws (s : State) : (replyAnySample s).draws = s.draws + 1 := rfl

end Sys2Proof.Machine
end

