-- ==== Sys2Proof/Laws/Launch.lean ====
section
/-! SUPPORT. Everything a launch can do (60_exceptions.md R165, R170), once. -/

namespace Sys2Proof.Machine

theorem latchOf_encode (i : Instr) (s : State) : latchOf (encode i) s = latchedBy i s := by
  unfold latchOf latchedBy
  rw [idField_encode, paramField_encode]
  rfl

theorem busy_eq_true_iff (s : State) : s.busy = true ↔ s.phase = stateBusy := by
  simp [State.busy]

theorem busy_eq_false_iff (s : State) : s.busy = false ↔ s.phase ≠ stateBusy := by
  rw [← Bool.not_eq_true, busy_eq_true_iff]

/-- The two outcomes of a launch. -/
theorem launch_cases (w : Word) (s : State) :
    (validate s.cap (latchOf w s) = none ∧ launch w s = acceptLaunch (latchCommand w s)) ∨
    ∃ e, validate s.cap (latchOf w s) = some e ∧
      launch w s = raiseError e (latchCommand w s) := by
  unfold launch
  cases h : validate s.cap (latchOf w s)
  · exact .inl ⟨rfl, rfl⟩
  · exact .inr ⟨_, rfl, rfl⟩

theorem launch_accepted {w : Word} {s : State} (h : validate s.cap (latchOf w s) = none) :
    launch w s = acceptLaunch (latchCommand w s) := by simp only [launch, h]

theorem launch_refused {w : Word} {s : State} {e : ErrorKind}
    (h : validate s.cap (latchOf w s) = some e) :
    launch w s = raiseError e (latchCommand w s) := by simp only [launch, h]

/-- What any status write of the launch leaves alone: everything but CMD, STATUS.STATE, STATUS.ERR, the
latch and OUT_C. -/
theorem launchFrame_of {w : Word} {s t : State} {err state : BitVec 2} {hazard : Bool}
    (h : t = { latchCommand w s with
                status := setStateField (setErrField s.status err) state
                srcHazard := hazard }) : LaunchFrame s t := by
  subst h
  refine ⟨⟨rfl, rfl, rfl, rfl, rfl⟩, ⟨fun _ => rfl, fun _ => rfl, fun _ => rfl⟩, rfl, rfl, rfl, ?_, ?_⟩
  · intro n h
    dsimp only
    rw [getLsbD_setStateField, if_neg (by omega), getLsbD_setErrField, if_neg (by omega)]
  · intro n h
    dsimp only
    rw [latchCommand_outFmt, getLsbD_setOutCField, if_neg (by omega)]

theorem acceptLaunch_frame (w : Word) (s : State) :
    LaunchFrame s (acceptLaunch (latchCommand w s)) :=
  launchFrame_of (w := w) (err := 0) (state := stateBusy) (hazard := false) rfl

theorem raiseError_frame (e : ErrorKind) (w : Word) (s : State) :
    LaunchFrame s (raiseError e (latchCommand w s)) :=
  launchFrame_of (w := w) (err := e.code) (state := stateError) (hazard := s.srcHazard) rfl

/-- What a launch leaves alone. -/
theorem launch_frame (w : Word) (s : State) : LaunchFrame s (launch w s) := by
  obtain ⟨_, h⟩ | ⟨e, _, h⟩ := launch_cases w s
  · rw [h]; exact acceptLaunch_frame w s
  · rw [h]; exact raiseError_frame e w s

/-- A launch does not touch the stores. -/
theorem launch_stores (w : Word) (s : State) :
    (launch w s).src = s.src ∧ (launch w s).dst = s.dst ∧ (launch w s).lut = s.lut := by
  obtain ⟨_, h⟩ | ⟨e, _, h⟩ := launch_cases w s <;> rw [h] <;> exact ⟨rfl, rfl, rfl⟩

theorem commandWrite_of_busy {s : State} (w : Word) (h : s.busy = true) : commandWrite w s = s := by
  simp [commandWrite, h]

theorem commandWrite_of_not_busy {s : State} (w : Word) (h : s.busy = false) :
    commandWrite w s = launch w s := by
  simp [commandWrite, h]

/-- On the host's move every command does what its CMD write does. -/
theorem exec_of_host {s : State} (i : Instr) (h : s.turn = .host) :
    exec i s = .next (commandWrite (encode i) s) := by
  cases i <;> simp [exec, execHisteq, execGamma, execGblur, execSobel, execTogray, execGray2color,
    execCstretch, execLogt, execNegative, execSharpen, execCartoon, execWatercolor, runCommand,
    runReserved, h]

end Sys2Proof.Machine
end

