-- ==== Sys2Proof/Laws/Memory.lean ====
section
/-! SUPPORT. The sample stores: a read after a write, the canonical form, and what storing a whole
image or a whole table leaves at each index (20_memory.md R40 to R43). -/

namespace Sys2Proof.Machine

namespace Memory

theorem lookup_write (m : Memory) (a b : Nat) (v : Byte) :
    (m.write a v).lookup b = if b = a then some v else m.lookup b := by
  induction m with
  | nil => simp [write, lookup]
  | cons cell m ih =>
    obtain ⟨k, u⟩ := cell
    unfold write
    split
    · simp [lookup]
    · split
      · subst a; by_cases hb : b = k <;> simp [lookup, hb]
      · by_cases hb : b = k
        · subst hb; simp [lookup, show ¬ b = a by omega]
        · simp [lookup, hb, ih]

theorem read_write (m : Memory) (store : StoreName) (epoch a b : Nat) (v : Byte) :
    (m.write a v).read store epoch b = if b = a then v else m.read store epoch b := by
  unfold read
  rw [lookup_write]
  split <;> rfl

theorem risesFrom_write {lo a : Nat} {m : Memory} (v : Byte) (hlo : lo < a)
    (h : risesFrom lo m = true) : risesFrom lo (m.write a v) = true := by
  induction m generalizing lo with
  | nil => simp [write, risesFrom, hlo]
  | cons cell m ih =>
    obtain ⟨k, u⟩ := cell
    simp only [risesFrom, Bool.and_eq_true, decide_eq_true_eq] at h
    unfold write
    split
    · simp [risesFrom, h.2, *]
    · split
      · simp_all [risesFrom]
      · simp [risesFrom, h.1, ih (show k < a by omega) h.2]

theorem wf_of_risesFrom {lo : Nat} {m : Memory} (h : risesFrom lo m = true) : m.wf = true := by
  cases m with
  | nil => rfl
  | cons cell m => obtain ⟨k, u⟩ := cell; simp_all [risesFrom, wf]

/-- A write keeps the canonical form. -/
theorem wf_write {m : Memory} (a : Nat) (v : Byte) (h : m.wf = true) : (m.write a v).wf = true := by
  cases m with
  | nil => rfl
  | cons cell m =>
    obtain ⟨k, u⟩ := cell
    unfold write
    split
    · simp_all [wf, risesFrom]
    · split
      · simp_all [wf]
      · simpa [wf] using risesFrom_write v (show k < a by omega) h

/-- A write at an index below the bound keeps every index below it. -/
theorem below_write {m : Memory} {bound a : Nat} (v : Byte) (ha : a < bound)
    (h : m.below bound = true) : (m.write a v).below bound = true := by
  induction m with
  | nil => simp [write, below, ha]
  | cons cell m ih =>
    obtain ⟨k, u⟩ := cell
    simp only [below, List.all_cons, Bool.and_eq_true, decide_eq_true_eq] at h ih ⊢
    unfold write
    split
    · simp [ha, h.1, h.2]
    · split
      · simp [ha, h.2]
      · simp [h.1, ih h.2]

end Memory

/-! ### Writing many entries -/

/-- Folding writes: an index that no entry writes is unchanged. -/
theorem lookup_foldr_write_other {α : Type} (l : List α) (at' : α → Nat) (val : α → Byte)
    (m : Memory) (b : Nat) (h : ∀ p ∈ l, at' p ≠ b) :
    Memory.lookup (l.foldr (fun p m => m.write (at' p) (val p)) m) b = m.lookup b := by
  induction l with
  | nil => rfl
  | cons p l ih =>
    rw [List.foldr_cons, Memory.lookup_write,
      if_neg (fun e => h p List.mem_cons_self e.symm),
      ih fun q hq => h q (List.mem_cons_of_mem _ hq)]

/-- Folding writes: where all entries that write one index agree, it holds their value. -/
theorem lookup_foldr_write_hit {α : Type} (l : List α) (at' : α → Nat) (val : α → Byte)
    (m : Memory) (p : α) (hp : p ∈ l) (h : ∀ q ∈ l, at' q = at' p → val q = val p) :
    Memory.lookup (l.foldr (fun p m => m.write (at' p) (val p)) m) (at' p) = some (val p) := by
  induction l with
  | nil => cases hp
  | cons q l ih =>
    rw [List.foldr_cons, Memory.lookup_write]
    by_cases e : at' p = at' q
    · rw [if_pos e, h q List.mem_cons_self e.symm]
    · rw [if_neg e]
      rcases List.mem_cons.mp hp with rfl | hp'
      · exact absurd rfl e
      · exact ih hp' fun r hr => h r (List.mem_cons_of_mem _ hr)

/-- Folding writes keeps the canonical form. -/
theorem wf_foldr_write {α : Type} (l : List α) (at' : α → Nat) (val : α → Byte) (m : Memory)
    (h : m.wf = true) : Memory.wf (l.foldr (fun p m => m.write (at' p) (val p)) m) = true := by
  induction l with
  | nil => exact h
  | cons p l ih => exact Memory.wf_write _ _ ih

/-- Folding writes below the bound keeps every index below it. -/
theorem below_foldr_write {α : Type} (l : List α) (at' : α → Nat) (val : α → Byte) (m : Memory)
    (bound : Nat) (hl : ∀ p ∈ l, at' p < bound) (h : m.below bound = true) :
    Memory.below (l.foldr (fun p m => m.write (at' p) (val p)) m) bound = true := by
  induction l with
  | nil => exact h
  | cons p l ih =>
    exact Memory.below_write _ (hl p List.mem_cons_self)
      (ih fun q hq => hl q (List.mem_cons_of_mem _ hq))

/-! ### Images -/

theorem mem_pixels {h w y x : Nat} : (y, x) ∈ pixels h w ↔ y < h ∧ x < w := by
  simp [pixels]

theorem mem_samples {h w chans y x c : Nat} :
    (y, x, c) ∈ samples h w chans ↔ y < h ∧ x < w ∧ c < chans := by
  simp only [samples, List.mem_flatMap, List.mem_map, List.mem_range, Prod.exists, Prod.mk.injEq]
  constructor
  · rintro ⟨y', x', hp, c', hc, rfl, rfl, rfl⟩
    exact ⟨(mem_pixels.mp hp).1, (mem_pixels.mp hp).2, hc⟩
  · rintro ⟨hy, hx, hc⟩
    exact ⟨y, x, mem_pixels.mpr ⟨hy, hx⟩, c, hc, rfl, rfl, rfl⟩

/-- Distinct samples of an image have distinct addresses (R42). -/
theorem idx_inj {w chans y x c y' x' c' : Nat} (hx : x < w) (hx' : x' < w) (hc : c < chans)
    (hc' : c' < chans) (h : idx w chans y x c = idx w chans y' x' c') :
    y = y' ∧ x = x' ∧ c = c' := by
  unfold idx at h
  have hcc : c = c' := by
    have := congrArg (· % chans) h
    simpa [Nat.mul_add_mod', Nat.mod_eq_of_lt hc, Nat.mod_eq_of_lt hc'] using this
  subst hcc
  have hp : y * w + x = y' * w + x' :=
    Nat.eq_of_mul_eq_mul_right (show 0 < chans by omega) (by omega)
  have hxx : x = x' := by
    have := congrArg (· % w) hp
    simpa [Nat.mul_add_mod', Nat.mod_eq_of_lt hx, Nat.mod_eq_of_lt hx'] using this
  subst hxx
  exact ⟨Nat.eq_of_mul_eq_mul_right (show 0 < w by omega) (by omega), rfl, rfl⟩

/-- The addresses of an image's samples lie below W·H·C (R40, R42). -/
theorem idx_lt {w h chans y x c : Nat} (hy : y < h) (hx : x < w) (hc : c < chans) :
    idx w chans y x c < w * h * chans := by
  unfold idx
  have h1 : y * w + x + 1 ≤ w * h := by
    have : (y + 1) * w ≤ h * w := Nat.mul_le_mul_right w hy
    rw [Nat.mul_comm w h]
    linarith [Nat.succ_mul y w]
  have h2 : (y * w + x + 1) * chans ≤ w * h * chans := Nat.mul_le_mul_right chans h1
  have h3 := Nat.succ_mul (y * w + x) chans
  simp only [Nat.succ_eq_add_one] at h3
  omega

/-- What storing an image leaves at the address of one of its samples. -/
theorem lookup_storeImage_hit {w h chans y x c : Nat} (f : Nat → Nat → Nat → Byte) (m : Memory)
    (hy : y < h) (hx : x < w) (hc : c < chans) :
    (storeImage w h chans f m).lookup (idx w chans y x c) = some (f y x c) := by
  refine lookup_foldr_write_hit (samples h w chans) (fun p => idx w chans p.1 p.2.1 p.2.2)
    (fun p => f p.1 p.2.1 p.2.2) m (y, x, c) (mem_samples.mpr ⟨hy, hx, hc⟩) ?_
  rintro ⟨y', x', c'⟩ hq e
  obtain ⟨_, hx', hc'⟩ := mem_samples.mp hq
  obtain ⟨rfl, rfl, rfl⟩ := idx_inj hx' hx hc' hc e
  rfl

/-- Storing an image changes nothing at or above W·H·C. -/
theorem lookup_storeImage_above {w h chans a : Nat} (f : Nat → Nat → Nat → Byte) (m : Memory)
    (ha : w * h * chans ≤ a) : (storeImage w h chans f m).lookup a = m.lookup a := by
  refine lookup_foldr_write_other _ _ (fun p : Nat × Nat × Nat => f p.1 p.2.1 p.2.2) m a ?_
  rintro ⟨y, x, c⟩ hp e
  obtain ⟨hy, hx, hc⟩ := mem_samples.mp hp
  have := idx_lt hy hx hc
  simp only at e
  omega

theorem wf_storeImage {w h chans : Nat} (f : Nat → Nat → Nat → Byte) {m : Memory}
    (hm : m.wf = true) : (storeImage w h chans f m).wf = true :=
  wf_foldr_write _ _ (fun p : Nat × Nat × Nat => f p.1 p.2.1 p.2.2) m hm

theorem below_storeImage {w h chans bound : Nat} (f : Nat → Nat → Nat → Byte) {m : Memory}
    (hb : w * h * chans ≤ bound) (hm : m.below bound = true) :
    (storeImage w h chans f m).below bound = true := by
  refine below_foldr_write _ _ (fun p : Nat × Nat × Nat => f p.1 p.2.1 p.2.2) m bound ?_ hm
  rintro ⟨y, x, c⟩ hp
  obtain ⟨hy, hx, hc⟩ := mem_samples.mp hp
  exact Nat.lt_of_lt_of_le (idx_lt hy hx hc) hb

/-- What storing a table leaves at each index. -/
theorem lookup_storeTable (f : Nat → Byte) (m : Memory) (i : Nat) :
    (storeTable f m).lookup i = if i < 256 then some (f i) else m.lookup i := by
  split
  · rename_i hi
    exact lookup_foldr_write_hit (List.range 256) (fun i => i) f m i (List.mem_range.mpr hi)
      fun q _ e => by rw [e]
  · rename_i hi
    exact lookup_foldr_write_other (List.range 256) (fun i => i) f m i
      fun q hq e => hi (e ▸ List.mem_range.mp hq)

theorem wf_storeTable (f : Nat → Byte) {m : Memory} (hm : m.wf = true) :
    (storeTable f m).wf = true := wf_foldr_write _ _ f m hm

theorem below_storeTable (f : Nat → Byte) {m : Memory} (hm : m.below 256 = true) :
    (storeTable f m).below 256 = true :=
  below_foldr_write _ _ f m 256 (fun _ hp => List.mem_range.mp hp) hm

end Sys2Proof.Machine
end

