-- ==== Sys2Proof/Laws/Completion.lean ====
section
/-! SUPPORT. Everything a completion step can do (60_exceptions.md R171), once: what `deliver` and
`publishTable` leave at each index and in each register, and which completion each command runs. -/

namespace Sys2Proof.Machine

theorem settled_of_undisturbed {s : State} (h : s.srcHazard = false) (store : StoreName) (a : Nat)
    (v : Byte) : s.settled store a v = v := by simp [State.settled, h]

theorem settled_of_disturbed {s : State} (h : s.srcHazard = true) (store : StoreName) (a : Nat)
    (v : Byte) : s.settled store a v = Config.hazardSample store s.draws a := by
  simp [State.settled, h]

/-- What `deliver` leaves in DST at the address of an output sample. -/
theorem deliver_dstAt (cOut : BitVec 2) (f : Nat → Nat → Nat → Byte) {s : State} {y x c : Nat}
    (hp : s.hasPixel y x) (hc : c < cOut.toNat) :
    (deliver cOut f s).dstAt (idx s.width cOut.toNat y x c)
      = s.settled .dst (idx s.width cOut.toNat y x c) (f y x c) := by
  unfold State.dstAt Memory.read
  rw [deliver_dst, lookup_storeImage_hit _ _ hp.1 hp.2 hc]
  rfl

/-- `deliver` leaves DST beyond the output alone. -/
theorem deliver_dstAt_beyond (cOut : BitVec 2) (f : Nat → Nat → Nat → Byte) (s : State) {a : Nat}
    (ha : s.width * s.height * cOut.toNat ≤ a) : (deliver cOut f s).dstAt a = s.dstAt a := by
  unfold State.dstAt Memory.read
  rw [deliver_dst, lookup_storeImage_above _ _ ha]
  rfl

theorem deliver_frame (cOut : BitVec 2) (f : Nat → Nat → Nat → Byte) (s : State) :
    CompletionFrame cOut.toNat s (deliver cOut f s) where
  outside := ⟨rfl, rfl, rfl, rfl, rfl⟩
  src := fun _ => rfl
  dstBeyond := fun _ ha => deliver_dstAt_beyond cOut f s ha
  cmd := rfl
  imgDim := rfl
  imgFmt := rfl
  latch := rfl
  statusOther := fun n h => by
    rw [deliver_status, getLsbD_setStateField, if_neg (by omega)]

theorem deliver_delivered (cOut : BitVec 2) (f : Nat → Nat → Nat → Byte) (s : State) :
    Delivered cOut.toNat (deliver cOut f s) where
  done := by simp [State.phase]
  announced := by simp

theorem deliver_tableFrame (cOut : BitVec 2) (f : Nat → Nat → Nat → Byte) (s : State) :
    TableFrame s (deliver cOut f s) where
  lut := fun _ => rfl
  outFmtOther := fun n h => by rw [deliver_outFmt, getLsbD_setOutCField, if_neg (by omega)]

/-- What `publishTable` leaves in LUT. -/
theorem publishTable_lutAt (f : Nat → Byte) (s : State) (i : Nat) :
    (publishTable f s).lutAt i = if i < 256 then f i else s.lutAt i := by
  unfold State.lutAt Memory.read
  rw [publishTable_lut, lookup_storeTable]
  split <;> rfl

/-- Publishing a table changes nothing a later `deliver` reads or frames, but LUT and LUT_VALID. -/
theorem publish_deliver_frame (cOut : BitVec 2) (f : Nat → Nat → Nat → Byte) (table : Nat → Byte)
    (s : State) : CompletionFrame cOut.toNat s (deliver cOut f (publishTable table s)) where
  outside := ⟨rfl, rfl, rfl, rfl, rfl⟩
  src := fun _ => rfl
  dstBeyond := fun a ha => deliver_dstAt_beyond cOut f (publishTable table s) (a := a) ha
  cmd := rfl
  imgDim := rfl
  imgFmt := rfl
  latch := rfl
  statusOther := fun n h => by
    rw [deliver_status, getLsbD_setStateField, if_neg (by omega)]; rfl

theorem publish_deliver_outFmt (cOut : BitVec 2) (f : Nat → Nat → Nat → Byte) (table : Nat → Byte)
    (s : State) :
    lutValidField (deliver cOut f (publishTable table s)).outFmt = true ∧
    ∀ n, 2 ≤ n → n ≠ 8 →
      (deliver cOut f (publishTable table s)).outFmt.getLsbD n = s.outFmt.getLsbD n := by
  refine ⟨by simp, fun n h2 h8 => ?_⟩
  rw [deliver_outFmt, getLsbD_setOutCField, if_neg (by omega), publishTable_outFmt,
    getLsbD_setLutValidField, if_neg h8]

/-- The latch that holds an encoded command holds its fields. -/
theorem fields_of_latched {s : State} {i : Instr} (h : s.latch.word = encode i) :
    s.latch.id = i.id ∧ s.latch.param = i.param := by
  have h1 := congrArg idField h
  have h2 := congrArg paramField h
  rw [idField_encode] at h1
  rw [paramField_encode] at h2
  exact ⟨by rw [← h1]; exact (idField_commandWord _ _).symm,
    by rw [← h2]; exact (paramField_commandWord _ _).symm⟩

/-- The completion step of each command (R171), and nothing for the reserved ones. -/
def completionOf : Instr → State → State
  | .histeq _ => completeHisteq
  | .gamma _ => completeGamma
  | .gblur _ => completeGblur
  | .sobel _ => completeSobel
  | .togray _ => completeTogray
  | .gray2color _ => completeGray2color
  | .cstretch _ => fun s => s
  | .logt _ => fun s => s
  | .negative _ => fun s => s
  | .sharpen _ => fun s => s
  | .cartoon _ => fun s => s
  | .watercolor _ => fun s => s

/-- On the engine's move a command completes if it is the one that runs, and else does nothing. -/
theorem exec_of_engine {s : State} (i : Instr) (h : s.turn = .engine) :
    exec i s = .next (if s.busy && s.latch.word == encode i then completionOf i s else s) := by
  cases i <;> simp [exec, execHisteq, execGamma, execGblur, execSobel, execTogray, execGray2color,
    execCstretch, execLogt, execNegative, execSharpen, execCartoon, execWatercolor, runCommand,
    runReserved, completionOf, h]

theorem exec_of_completing {s : State} {i : Instr} (h : Completing i s) :
    exec i s = .next (completionOf i s) := by
  rw [exec_of_engine i h.engineMoves, if_pos (by simp [h.running, h.latched])]

/-- Every command answers a next state from every state. -/
theorem exec_cases (i : Instr) (s : State) :
    (s.turn = .host ∧ exec i s = .next (commandWrite (encode i) s)) ∨
    (s.turn = .engine ∧
      exec i s = .next (if s.busy && s.latch.word == encode i then completionOf i s else s)) := by
  cases h : s.turn
  · exact .inl ⟨rfl, exec_of_host i h⟩
  · exact .inr ⟨rfl, exec_of_engine i h⟩

/-- A completion is a `deliver`, after a table has been published or not. -/
theorem completionOf_cases (i : Instr) (s : State) :
    (∃ cOut f, completionOf i s = deliver cOut f s) ∨
    (∃ cOut f table, completionOf i s = deliver cOut f (publishTable table s)) ∨
    (i.implemented = false ∧ completionOf i s = s) := by
  cases i
  case histeq => exact .inr (.inl ⟨_, _, _, rfl⟩)
  case gamma => exact .inr (.inl ⟨_, _, _, rfl⟩)
  case gblur => exact .inl ⟨_, _, rfl⟩
  case sobel => exact .inl ⟨_, _, rfl⟩
  case togray => exact .inl ⟨_, _, rfl⟩
  case gray2color => exact .inl ⟨_, _, rfl⟩
  all_goals exact .inr (.inr ⟨rfl, rfl⟩)

end Sys2Proof.Machine
end

