-- ==== Sys2Proof/Laws/Images.lean ====
section
/-! SUPPORT. The gray plane (40_color_to_grayscale.md) and the equalisation table
(42_histogram_equalization_lut.md R101, R102): what each shared operation returns, once. -/

namespace Sys2Proof.Machine

/-! ### The gray plane -/

theorem length_pixels (h w : Nat) : (pixels h w).length = h * w := by simp [pixels]

theorem luma_toNat (b g r : Byte) : (luma b g r).toNat
    = (1868 * b.toNat + 9617 * g.toNat + 4899 * r.toNat + 8192) / 16384 := by
  have := b.isLt
  have := g.isLt
  have := r.isLt
  unfold luma weightB weightG weightR
  rw [roundShift_eq, sat8_natCast]
  simp only [Nat.reduceSub, Nat.reducePow]
  omega

theorem gray_of_one {s : State} (h : s.latch.c = 1) (y x : Nat) :
    s.gray y x = s.srcAt (idx s.width 1 y x 0) := by simp [State.gray, h]

theorem gray_of_three {s : State} (h : s.latch.c = 3) (y x : Nat) :
    s.gray y x = luma (s.srcAt (idx s.width 3 y x 0)) (s.srcAt (idx s.width 3 y x 1))
      (s.srcAt (idx s.width 3 y x 2)) := by simp [State.gray, h]

/-! ### The counts -/

theorem runningSums_getElem? (l : List Nat) (acc i : Nat) (hi : i < l.length) :
    (runningSums acc l)[i]? = some (acc + (l.take (i + 1)).sum) := by
  induction l generalizing acc i with
  | nil => simp at hi
  | cons h l ih =>
    cases i with
    | zero => simp [runningSums]
    | succ i =>
      simp only [runningSums, List.getElem?_cons_succ]
      rw [ih _ _ (by simpa using hi)]
      simp [Nat.add_assoc]

/-- The pixels at most i + 1 are those at most i and those equal to i + 1. -/
theorem countP_le_succ (plane : List Byte) (i : Nat) :
    (plane.countP fun v => decide (v.toNat ≤ i + 1))
      = (plane.countP fun v => decide (v.toNat ≤ i)) + histBin plane (i + 1) := by
  unfold histBin
  induction plane with
  | nil => rfl
  | cons v plane ih =>
    simp only [List.countP_cons, ih]
    by_cases h1 : v.toNat ≤ i
    · simp [h1, show v.toNat ≤ i + 1 by omega, show ¬ v.toNat = i + 1 by omega]; omega
    · by_cases h2 : v.toNat = i + 1
      · simp [h2]; omega
      · simp [h1, h2, show ¬ v.toNat ≤ i + 1 by omega]

theorem sum_histBin (plane : List Byte) (i : Nat) :
    ((List.range (i + 1)).map (histBin plane)).sum
      = plane.countP fun v => decide (v.toNat ≤ i) := by
  induction i with
  | zero =>
    simp only [histBin, Nat.zero_add, List.range_one, List.map_cons, List.map_nil, List.sum_cons,
      List.sum_nil, Nat.add_zero]
    exact List.countP_congr fun v _ => by simp
  | succ i ih =>
    rw [List.range_succ, List.map_append, List.sum_append, ih, countP_le_succ]
    simp

/-- Entry i of the table is `histeqEntry` of the number of pixels at most i. -/
theorem histeqTable_getD (n : Nat) (plane : List Byte) {i : Nat} (hi : i < 256) :
    (histeqTable n plane).getD i 0
      = histeqEntry n (plane.countP fun v => decide (v.toNat ≤ i)) := by
  have hl : (histogram plane).length = 256 := by simp [histogram]
  have := runningSums_getElem? (histogram plane) 0 i (by omega)
  rw [List.getD_eq_getElem?_getD, histeqTable, List.getElem?_map, cumulative, this]
  simp only [Option.map_some, Option.getD_some, Nat.zero_add]
  rw [histogram, ← List.map_take, List.take_range, Nat.min_eq_left (by omega), sum_histBin]

theorem countP_grayPlane (s : State) (i : Nat) :
    (s.grayPlane.countP fun v => decide (v.toNat ≤ i)) = s.cdf i := by
  simp only [State.grayPlane, State.cdf, List.countP_map]
  rfl

theorem cdf_le (s : State) (i : Nat) : s.cdf i ≤ s.width * s.height := by
  have h := List.countP_le_length (l := pixels s.height s.width)
    (p := fun yx => decide ((s.gray yx.1 yx.2).toNat ≤ i))
  rw [length_pixels, Nat.mul_comm] at h
  exact h

theorem cdf_mono (s : State) {i j : Nat} (h : i ≤ j) : s.cdf i ≤ s.cdf j :=
  List.countP_mono_left fun yx _ => by simp; omega

/-- Every pixel counts at the brightest value present. -/
theorem cdf_eq_of_forall_le {s : State} {m i : Nat}
    (h : ∀ y x, s.hasPixel y x → (s.gray y x).toNat ≤ m) (hi : m ≤ i) :
    s.cdf i = s.width * s.height := by
  rw [State.cdf, List.countP_eq_length.mpr, length_pixels, Nat.mul_comm]
  rintro ⟨y, x⟩ hyx
  have := h y x (mem_pixels.mp hyx)
  simp
  omega

theorem histeqEntry_toNat {n cdf : Nat} (h : cdf ≤ n) :
    (histeqEntry n cdf).toNat = (510 * cdf + n) / (2 * n) := by
  unfold histeqEntry
  have he : 2 * (255 * cdf) + n = 510 * cdf + n := by omega
  have hb : (2 * (255 * cdf) + n) / (2 * n) ≤ 255 := by
    rcases Nat.eq_zero_or_pos n with rfl | hn
    · simp
    · rw [Nat.div_le_iff_le_mul_add_pred (by omega)]
      omega
  rw [sat8_rndDiv hb, he]

/-! ### What HISTEQ leaves -/

theorem lutAt_completeHisteq {s : State} (h : s.srcHazard = false) {i : Nat} (hi : i < 256) :
    (completeHisteq s).lutAt i = histeqEntry (s.width * s.height) (s.cdf i) := by
  unfold completeHisteq expand
  rw [(deliver_tableFrame _ _ _).lut, publishTable_lutAt, if_pos hi, settled_of_undisturbed h,
    histeqTable_getD _ _ hi, countP_grayPlane]

theorem dstAt_completeHisteq {s : State} (h : s.srcHazard = false) {y x c : Nat}
    (hp : s.hasPixel y x) (hc : c < s.chans) :
    (completeHisteq s).dstAt (idx s.width s.chans y x c)
      = histeqEntry (s.width * s.height) (s.cdf (s.gray y x).toNat) := by
  rw [← countP_grayPlane, ← histeqTable_getD _ _ (s.gray y x).isLt]
  unfold completeHisteq expand
  refine (deliver_dstAt s.latch.c _ (s := publishTable _ s) hp hc).trans ?_
  exact settled_of_undisturbed (s := publishTable _ s) h _ _ _

/-! ### What a result depends on (R8) -/

/-- Two states hold the same command and the same input image. -/
structure SameInput (s t : State) : Prop where
  latch : t.latch = s.latch
  samples : ∀ a, a < s.inputSamples → t.srcAt a = s.srcAt a

theorem SameInput.width {s t : State} (h : SameInput s t) : t.width = s.width := by
  simp [State.width, h.latch]

theorem SameInput.height {s t : State} (h : SameInput s t) : t.height = s.height := by
  simp [State.height, h.latch]

theorem SameInput.chans {s t : State} (h : SameInput s t) : t.chans = s.chans := by
  simp [State.chans, h.latch]

theorem SameInput.gray {s t : State} (h : SameInput s t) (hc : s.latch.c = 1 ∨ s.latch.c = 3)
    {y x : Nat} (hp : s.hasPixel y x) : t.gray y x = s.gray y x := by
  have hs : ∀ c, c < s.chans →
      t.srcAt (idx s.width s.chans y x c) = s.srcAt (idx s.width s.chans y x c) :=
    fun c hc => h.samples _ (idx_lt hp.1 hp.2 hc)
  rcases hc with h1 | h3
  · have e : s.chans = 1 := by simp [State.chans, h1]
    rw [e] at hs
    rw [gray_of_one (by rw [h.latch, h1]), gray_of_one h1, h.width, hs 0 (by omega)]
  · have e : s.chans = 3 := by simp [State.chans, h3]
    rw [e] at hs
    rw [gray_of_three (by rw [h.latch, h3]), gray_of_three h3, h.width, hs 0 (by omega),
      hs 1 (by omega), hs 2 (by omega)]

theorem SameInput.cdf {s t : State} (h : SameInput s t) (hc : s.latch.c = 1 ∨ s.latch.c = 3)
    (i : Nat) : t.cdf i = s.cdf i := by
  unfold State.cdf
  rw [h.width, h.height]
  exact List.countP_congr fun yx hm => by
    rw [h.gray hc (y := yx.1) (x := yx.2) (mem_pixels.mp hm)]

end Sys2Proof.Machine
end

