-- ==== Sys2Proof/Laws/Blur.lean ====
section
/-! SUPPORT. The kernel rows, the two passes and the rounded sample of GBLUR
(44_gaussian_blur_kernel.md R122, R124, R125): what each returns, once. -/

namespace Sys2Proof.Machine

/-! ### The kernel rows -/

/-- The rows that are not empty. -/
theorem kromRow_eq_nil {k : Nat} (h : k ∉ legalKernelSizes) : kromRow k = [] := by
  unfold kromRow
  split <;> first | rfl | exact absurd (by decide) h

/-- Every kernel has unit gain. -/
theorem sumTaps_krom {k : Nat} (h : k ∈ legalKernelSizes) : sumTaps k (krom k) = 65536 := by
  have : ∀ k ∈ legalKernelSizes, sumTaps k (krom k) = 65536 := by decide +kernel
  exact this k h

theorem sumTaps_krom_le (k : Nat) : sumTaps k (krom k) ≤ 65536 := by
  by_cases h : k ∈ legalKernelSizes
  · exact Nat.le_of_eq (sumTaps_krom h)
  · have hz : ∀ j, j < k → krom k j = 0 * 0 := fun j _ => by simp [krom, kromRow_eq_nil h]
    rw [sumTaps_congr hz, sumTaps_mul k 0 fun _ => 0, Nat.zero_mul]
    exact Nat.zero_le _

/-- A kernel reads the same from both ends. -/
theorem krom_reverse {k j : Nat} (h : k ∈ legalKernelSizes) (hj : j < k) :
    krom k (k - 1 - j) = krom k j := by
  have : ∀ k ∈ legalKernelSizes, ∀ j < k, krom k (k - 1 - j) = krom k j := by decide +kernel
  exact this k h j hj

theorem tapCoord_lt {n : Nat} (k j i : Nat) (hn : 1 ≤ n) : tapCoord k j i n < n := refl_lt _ hn

/-- Mirroring the centre mirrors the tap and the coordinate it fetches. -/
theorem tapCoord_mirror {k j i n : Nat} (h : k ∈ legalKernelSizes) (hj : j < k) (hi : i < n) :
    tapCoord k j (n - 1 - i) n = n - 1 - tapCoord k (k - 1 - j) i n := by
  have hodd : ∀ k ∈ legalKernelSizes, k % 2 = 1 := by decide
  have hk := hodd k h
  unfold tapCoord
  rw [← refl_mirror _ (show 1 ≤ n by omega)]
  congr 1
  omega

/-! ### The passes -/

/-- A weighted sum of values up to `hi` is at most `hi` times the gain, and at least `lo` times it. -/
theorem sumTaps_krom_le_mul {k hi : Nat} {f : Nat → Nat} (h : ∀ j, j < k → f j ≤ hi) :
    (sumTaps k fun j => krom k j * f j) ≤ 65536 * hi := by
  refine Nat.le_trans (sumTaps_le (g := fun j => hi * krom k j) fun j hj => ?_) ?_
  · rw [Nat.mul_comm]
    exact Nat.mul_le_mul_right _ (h j hj)
  · rw [sumTaps_mul, Nat.mul_comm]
    exact Nat.mul_le_mul_right _ (sumTaps_krom_le k)

theorem mul_le_sumTaps_krom {k lo : Nat} {f : Nat → Nat} (hk : k ∈ legalKernelSizes)
    (h : ∀ j, j < k → lo ≤ f j) : 65536 * lo ≤ sumTaps k fun j => krom k j * f j := by
  refine Nat.le_trans ?_ (sumTaps_le (f := fun j => lo * krom k j) fun j hj => ?_)
  · rw [sumTaps_mul, sumTaps_krom hk, Nat.mul_comm]
  · rw [Nat.mul_comm]
    exact Nat.mul_le_mul_left _ (h j hj)

theorem blurV_le (s : State) (y x c : Nat) : s.blurV y x c ≤ 65536 * (65536 * 255) :=
  sumTaps_krom_le_mul fun _ _ => sumTaps_krom_le_mul fun _ _ => by
    have := (s.srcAt (idx s.width s.chans (tapCoord s.kernelSize ‹_› y s.height)
      (tapCoord s.kernelSize ‹_› x s.width) c)).isLt
    omega

/-- The blurred sample as a number: the saturator never clamps (R127). -/
theorem blurred_toNat (s : State) (y x c : Nat) :
    (s.blurred y x c).toNat = (s.blurV y x c + 2 ^ 31) / 2 ^ 32 := by
  have h := blurV_le s y x c
  unfold State.blurred
  rw [roundShift_eq, sat8_natCast]
  simp only [Nat.reduceSub, Nat.reducePow]
  omega

theorem SameInput.blurred {s t : State} (h : SameInput s t) {y x c : Nat} (hp : s.hasPixel y x)
    (hc : c < s.chans) : t.blurred y x c = s.blurred y x c := by
  have hk : t.kernelSize = s.kernelSize := by simp [State.kernelSize, h.latch]
  have hV : t.blurV y x c = s.blurV y x c := by
    unfold State.blurV State.blurH
    rw [hk, h.width, h.height, h.chans]
    refine sumTaps_congr fun u _ => congrArg _ (sumTaps_congr fun v _ => ?_)
    rw [h.samples _ (idx_lt (tapCoord_lt _ _ _ (by have := hp.1; omega))
      (tapCoord_lt _ _ _ (by have := hp.2; omega)) hc)]
  unfold State.blurred
  rw [hV]

end Sys2Proof.Machine
end

