-- ==== Sys2Proof/Laws/Gamma.lean ====
section
/-! SUPPORT. The table of GAMMA (43_gamma_correction_lut.md R111): which levels its condition admits,
and what the entry the search returns satisfies. -/

namespace Sys2Proof.Machine

/-- The number of the entry is what the search of R111 returns. -/
theorem gammaEntry_toNat (i g : Nat) : (gammaEntry i g).toNat
    = largestUpTo (fun m => decide (GammaReaches i g m)) 255 := by
  unfold gammaEntry GammaReaches
  exact sat8_natCast (largestUpTo_spec _ 255).1

/-- The entry is 0 or admitted. -/
theorem gammaEntry_reaches (i g : Nat) :
    (gammaEntry i g).toNat = 0 ∨ GammaReaches i g (gammaEntry i g).toNat := by
  rw [gammaEntry_toNat]
  exact (largestUpTo_spec _ 255).2.1.imp id of_decide_eq_true

/-- No level above the entry is admitted. -/
theorem not_gammaReaches_above {i g m : Nat} (h : (gammaEntry i g).toNat < m) (hm : m ≤ 255) :
    ¬ GammaReaches i g m := by
  rw [gammaEntry_toNat] at h
  exact of_decide_eq_false ((largestUpTo_spec _ 255).2.2 m h hm)

/-- An admitted level is not above the entry. -/
theorem le_gammaEntry {i g m : Nat} (h : GammaReaches i g m) (hm : m ≤ 255) :
    m ≤ (gammaEntry i g).toNat := by
  by_contra hlt
  exact not_gammaReaches_above (by omega) hm h

/-- A brighter input admits what a darker one does. -/
theorem GammaReaches.mono {i j g m : Nat} (h : GammaReaches i g m) (hij : i ≤ j) :
    GammaReaches j g m :=
  Nat.le_trans h (Nat.mul_le_mul_left _ (Nat.pow_le_pow_left hij g))

/-- A smaller exponent admits what a larger one does. -/
theorem GammaReaches.anti {i g g' m : Nat} (h : GammaReaches i g' m) (hi : i ≤ 255) (hg : g ≤ g') :
    GammaReaches i g m := by
  obtain ⟨d, rfl⟩ := Nat.exists_eq_add_of_le hg
  unfold GammaReaches at *
  rw [Nat.pow_add, Nat.pow_add, ← Nat.mul_assoc, ← Nat.mul_assoc] at h
  have h2 := Nat.mul_le_mul_left (510 ^ 256 * i ^ g) (Nat.pow_le_pow_left hi d)
  exact Nat.le_of_mul_le_mul_right (Nat.le_trans h h2) (Nat.pow_pos (by omega))

/-- With γ = 1 (g = 256) exactly the levels up to the input are admitted. -/
theorem gammaReaches_one_iff {i m : Nat} : GammaReaches i 256 m ↔ 2 * m - 1 ≤ 2 * i := by
  unfold GammaReaches
  rw [← Nat.mul_pow, ← Nat.mul_pow, Nat.pow_le_pow_iff_left (by omega)]
  omega

/-- Nothing but 0 is admitted for a black input. -/
theorem not_gammaReaches_black {g m : Nat} (hg : 1 ≤ g) (hm : 1 ≤ m) : ¬ GammaReaches 0 g m := by
  unfold GammaReaches
  rw [Nat.zero_pow (by omega), Nat.mul_zero, Nat.le_zero]
  exact Nat.mul_ne_zero (Nat.pow_pos (by omega)).ne' (Nat.pow_pos (by omega)).ne'

/-- A white input admits white. -/
theorem gammaReaches_white (g : Nat) : GammaReaches 255 g 255 :=
  Nat.mul_le_mul_right _ (Nat.pow_le_pow_left (by omega) 256)

/-! ### What GAMMA leaves -/

theorem gammaParam_of_latched {s : State} {g : Half} (h : s.latch.word = encode (.gamma g))
    (hg : 0 < g.toInt) : s.gammaParam = g.toNat := by
  have hp : s.latch.param = g := (fields_of_latched h).2
  rw [State.gammaParam, hp, sext16]
  have hlt := g.isLt
  have hi := BitVec.toInt_eq_toNat_cond g
  split at hi <;> omega

theorem lutAt_completeGamma (s : State) {i : Nat} (hi : i < 256) :
    (completeGamma s).lutAt i = gammaEntry i s.gammaParam := by
  unfold completeGamma expand
  rw [(deliver_tableFrame _ _ _).lut, publishTable_lutAt, if_pos hi]

theorem dstAt_completeGamma {s : State} (h : s.srcHazard = false) {y x c : Nat}
    (hp : s.hasPixel y x) (hc : c < s.chans) :
    (completeGamma s).dstAt (idx s.width s.chans y x c)
      = gammaEntry (s.gray y x).toNat s.gammaParam := by
  unfold completeGamma expand
  refine (deliver_dstAt s.latch.c _ (s := publishTable _ s) hp hc).trans ?_
  exact settled_of_undisturbed (s := publishTable _ s) h _ _ _

end Sys2Proof.Machine
end

