-- ==== Sys2Proof/Laws/Step.lean ====
section
/-! SUPPORT. Everything one step can do, once: the moves of the host and of the engine. -/

namespace Sys2Proof.Machine

/-- The moves: `Move s t` lists the ways in which a step can take `s` to `t`. -/
inductive Move (s : State) : State → Prop where
  /-- A move that changes nothing of the block: an ignored or dropped write, or an engine that has
  nothing to do. -/
  | quiet (schedule : List Event) (turn : Agent) :
      Move s { s with schedule := schedule, turn := turn }
  /-- A read that returns what is there. -/
  | replied (schedule : List Event) (r : Reply) :
      Move s (reply r { s with schedule := schedule, turn := .host })
  /-- A register read of a reserved offset. -/
  | repliedAnyWord (schedule : List Event) :
      Move s (replyAnyWord { s with schedule := schedule, turn := .host })
  /-- A sample read that the spec leaves unspecified. -/
  | repliedAnySample (schedule : List Event) :
      Move s (replyAnySample { s with schedule := schedule, turn := .host })
  /-- A write of IMG_DIM. -/
  | wroteImgDim (schedule : List Event) (v : Word) :
      Move s { s with schedule := schedule, turn := .host, imgDim := v }
  /-- A write of IMG_FMT. -/
  | wroteImgFmt (schedule : List Event) (v : Word) :
      Move s { s with schedule := schedule, turn := .host, imgFmt := imgFmtStored v }
  /-- A write of SRC below CAP. -/
  | wroteSrc (rest : List Event) (a : Nat) (v : Byte)
      (sched : s.schedule = .access (.writeSrc a v) :: rest) (inside : a < s.cap) :
      Move s (writeSrc a v { s with schedule := rest, turn := .host })
  /-- A write of CMD while not BUSY. -/
  | launched (rest : List Event) (w : Word)
      (sched : s.schedule = .access (.writeReg 0x00 w) :: rest) (notBusy : s.busy = false) :
      Move s (launch w { s with schedule := rest, turn := .host })
  /-- The engine's completion of the running command. -/
  | completed (schedule : List Event) (i : Instr) (running : s.busy = true)
      (latched : s.latch.word = encode i) :
      Move s (completionOf i { s with schedule := schedule, turn := .engine })
  /-- Reset. -/
  | wasReset (rest : List Event) (sched : s.schedule = .reset :: rest) :
      Move s (assertReset { s with schedule := rest, turn := .host })

/-- A CMD write, whatever the word: dropped while BUSY, else a launch. -/
theorem runCommandWord_eq (w : Word) {s : State} (h : s.turn = .host) :
    runCommandWord w s = .next (commandWrite w s) := by
  unfold runCommandWord
  cases hd : decode w with
  | error r => rfl
  | ok i =>
    obtain ⟨hid, hparam⟩ := fields_of_decode hd
    simp only []
    rw [exec_of_host i h, encode_eq_of_fields hid hparam]

/-- The engine's move is a completion of the running command, or nothing. -/
theorem engineMove_cases (s : State) :
    (∃ i, s.busy = true ∧ s.latch.word = encode i ∧
      engineMove s = .next (completionOf i { s with turn := .engine })) ∨
    (engineMove s = .next { s with turn := .engine } ∧
      (s.busy = true → ∃ r, decode s.latch.word = .error r)) := by
  unfold engineMove
  cases hb : s.busy
  · exact .inr ⟨rfl, fun h => by cases h⟩
  · cases hd : decode s.latch.word with
    | error r => exact .inr ⟨rfl, fun _ => ⟨r, rfl⟩⟩
    | ok i =>
      obtain ⟨hid, hparam⟩ := fields_of_decode hd
      have he := (encode_eq_of_fields hid hparam).symm
      refine .inl ⟨i, rfl, he, ?_⟩
      exact exec_of_completing (s := { s with turn := .engine }) ⟨rfl, hb, he⟩

theorem move_of_engineMove {s t : State} (schedule : List Event)
    (h : engineMove { s with schedule := schedule } = .next t) : Move s t := by
  rcases engineMove_cases { s with schedule := schedule } with ⟨i, hb, hl, he⟩ | ⟨he, _⟩
  · rw [he] at h; cases h; exact .completed schedule i hb hl
  · rw [he] at h; cases h; exact .quiet schedule .engine

theorem move_of_readReg (s : State) (schedule : List Event) (offset : Nat) :
    Move s (readReg offset { s with schedule := schedule, turn := .host }) := by
  unfold readReg
  cases regAt offset with
  | none => exact .repliedAnyWord schedule
  | some r => exact .replied schedule _

theorem regAt_eq_cmd {offset : Nat} (h : regAt offset = some .cmd) : offset = 0x00 := by
  unfold regAt at h
  by_cases h0 : offset = 0x00
  · exact h0
  · rw [if_neg h0] at h
    split_ifs at h <;> cases h

theorem move_of_writeReg {s t : State} {rest : List Event} {offset : Nat} {v : Word}
    (hs : s.schedule = .access (.writeReg offset v) :: rest)
    (h : writeReg offset v { s with schedule := rest, turn := .host } = .next t) : Move s t := by
  unfold writeReg at h
  cases hr : regAt offset with
  | none => simp only [hr] at h; cases h; exact .quiet rest .host
  | some r =>
    cases r <;> simp only [hr] at h
    case cmd =>
      obtain rfl := regAt_eq_cmd hr
      rw [runCommandWord_eq v rfl] at h
      cases h
      cases hb : s.busy
      · rw [commandWrite_of_not_busy v (s := { s with schedule := rest, turn := .host }) hb]
        exact .launched rest v hs hb
      · rw [commandWrite_of_busy v (s := { s with schedule := rest, turn := .host }) hb]
        exact .quiet rest .host
    case imgDim => cases h; exact .wroteImgDim rest v
    case imgFmt => cases h; exact .wroteImgFmt rest v
    all_goals cases h; exact .quiet rest .host

theorem move_of_hostAccess {s t : State} {rest : List Event} {a : HostAccess}
    (hs : s.schedule = .access a :: rest)
    (h : hostAccess a { s with schedule := rest, turn := .host } = .next t) : Move s t := by
  unfold hostAccess at h
  cases a with
  | writeReg offset v =>
    simp only [] at h
    split at h
    · exact move_of_writeReg hs h
    · cases h
  | readReg offset =>
    simp only [] at h
    split at h
    · cases h; exact move_of_readReg s rest offset
    · cases h
  | narrowWrite _ _ _ => cases h
  | narrowRead _ _ => cases h
  | writeSrc a v =>
    cases h
    by_cases ha : a < s.cap
    · exact .wroteSrc rest a v hs ha
    · rw [show writeSrc a v { s with schedule := rest, turn := .host }
        = { s with schedule := rest, turn := .host } by simp [writeSrc, ha]]
      exact .quiet rest .host
  | readSrc a =>
    cases h
    unfold readSrc
    split
    · exact .replied rest _
    · exact .repliedAnySample rest
  | writeDst _ _ => cases h; exact .quiet rest .host
  | readDst a =>
    cases h
    unfold readDst
    split
    · exact .replied rest _
    · exact .repliedAnySample rest
  | writeLut _ _ => cases h; exact .quiet rest .host
  | readLut i =>
    cases h
    unfold readLut
    split
    · exact .replied rest _
    · exact .repliedAnySample rest

theorem move_of_waitMove {s t : State} {rest : List Event} {polls : Nat}
    (h : waitMove polls rest { s with schedule := rest } = .next t) : Move s t := by
  unfold waitMove at h
  split at h
  · cases polls with
    | zero => exact move_of_engineMove (.wait 0 :: rest) h
    | succ n => cases h; exact move_of_readReg s (.wait n :: rest) 0x04
  · cases h; exact move_of_readReg s rest 0x04

/-- A step is one of the moves. -/
theorem move_of_step {s t : State} (h : step s = .next t) : Move s t := by
  unfold step nextMove at h
  cases hs : s.schedule with
  | nil =>
    rw [hs] at h
    refine move_of_engineMove [] ?_
    rwa [show ({ s with schedule := [] } : State) = s by rw [← hs]]
  | cons e rest =>
    rw [hs] at h
    cases e with
    | access a => exact move_of_hostAccess hs h
    | wait polls => exact move_of_waitMove h
    | engine => exact move_of_engineMove rest h
    | reset => cases h; exact .wasReset rest hs

end Sys2Proof.Machine
end

