-- ==== Sys2Proof/Laws/Validate.lean ====
section
/-! SUPPORT. What validation says (60_exceptions.md R161 to R164): each check as the numbers of the
latch, and everything that holds of a latch that passed all three. -/

namespace Sys2Proof.Machine

theorem kernelLegal_iff (k : Half) : legalKernelSizes.contains k.toNat = true ↔
    (3 ≤ k.toNat ∧ k.toNat ≤ 21 ∧ k.toNat % 2 = 1) := by
  simp only [legalKernelSizes, List.contains_iff_mem, List.mem_cons, List.not_mem_nil, or_false]
  omega

theorem gammaIllegal_iff (g : Half) : sext16 g ≤ 0 ↔ (g = 0 ∨ 0x8000 ≤ g) := by
  unfold sext16
  have h0 : g = 0 ↔ g.toNat = 0 := by rw [← BitVec.toNat_inj]; rfl
  have := g.isLt
  rw [BitVec.toInt_eq_toNat_cond, BitVec.le_def, h0]
  simp only [BitVec.reduceToNat]
  split <;> omega

theorem bufferLegal_eq_false_iff (cap : Nat) (l : Latch) : bufferLegal cap l = false ↔
    (l.w = 0 ∨ l.h = 0 ∨
      (l.id = 0x0011 ∧ (l.c ≠ 1 ∨ cap < 3 * (l.w.toNat * l.h.toNat))) ∨
      (l.id ≠ 0x0011 ∧
        ((l.c ≠ 1 ∧ l.c ≠ 3) ∨ cap < l.w.toNat * l.h.toNat * l.c.toNat))) := by
  unfold bufferLegal
  by_cases h : l.w = 0 ∨ l.h = 0
  · rw [if_pos h]
    simp only [true_iff]
    tauto
  · rw [if_neg h]
    by_cases hi : l.id = 0x0011
    · simp [hi]; grind
    · rw [if_neg hi]; simp; grind

/-- Check 1 fails for every identifier the block does not implement. -/
theorem validate_unknown {cap : Nat} {l : Latch} (h : l.id ∉ implementedIds) :
    validate cap l = some .unknownFilter := by simp [validate, h]

/-- Everything validation guarantees. -/
structure Validated (cap : Nat) (l : Latch) : Prop where
  known : l.id ∈ implementedIds
  gamma : l.id = 0x0003 → 0 < sext16 l.param
  kernel : l.id = 0x0006 → l.param.toNat ∈ legalKernelSizes
  width : 0 < l.w.toNat
  height : 0 < l.h.toNat
  chans : l.c = 1 ∨ l.c = 3
  gray2color : l.id = 0x0011 → l.c = 1
  input : l.w.toNat * l.h.toNat * l.c.toNat ≤ cap
  tripled : l.id = 0x0011 → l.w.toNat * l.h.toNat * 3 ≤ cap

theorem validated_of_none {cap : Nat} {l : Latch} (h : validate cap l = none) : Validated cap l := by
  unfold validate at h
  split at h
  · cases h
  · rename_i hk
    split at h
    · cases h
    · rename_i hg
      split at h
      · cases h
      · rename_i hK
        split at h
        · cases h
        · rename_i hb
          have hb' : ¬ bufferLegal cap l = false := by simpa using hb
          rw [bufferLegal_eq_false_iff] at hb'
          have hw : l.w = 0 ↔ l.w.toNat = 0 := by rw [← BitVec.toNat_inj]; rfl
          have hh : l.h = 0 ↔ l.h.toNat = 0 := by rw [← BitVec.toNat_inj]; rfl
          simp only [not_or, not_and, not_lt, ne_eq, Classical.not_not] at hb'
          obtain ⟨h1, h2, h3, h4⟩ := hb'
          rw [hw] at h1
          rw [hh] at h2
          refine ⟨by simpa using hk, fun e => ?_, fun e => ?_, by omega, by omega, ?_, fun e => (h3 e).1,
            ?_, fun e => ?_⟩
          · have := not_and.mp hg e
            omega
          · have := not_and.mp hK e
            simpa using this
          · by_cases e : l.id = 0x0011
            · exact .inl (h3 e).1
            · by_cases e1 : l.c = 1
              · exact .inl e1
              · exact .inr ((h4 e).1 e1)
          · by_cases e : l.id = 0x0011
            · rw [(h3 e).1]
              have := (h3 e).2
              simp only [BitVec.reduceToNat]
              omega
            · exact (h4 e).2
          · have := (h3 e).2
            omega

/-- The running command of a validated latch is one the block implements. -/
theorem implemented_of_validated {s : State} {i : Instr} (h : Validated s.cap s.latch)
    (hl : s.latch.word = encode i) : i.implemented = true := by
  have hid := (fields_of_latched hl).1
  have hk := h.known
  rw [hid] at hk
  revert hk
  cases i <;> simp [Instr.id, Instr.implemented, implementedIds]

/-- Its output fits in DST (R164). -/
theorem output_le_cap {s : State} {i : Instr} (h : Validated s.cap s.latch)
    (hl : s.latch.word = encode i) : s.width * s.height * outChans i s ≤ s.cap := by
  have hi := h.input
  have hid := (fields_of_latched hl).1
  have hone : s.width * s.height * 1 ≤ s.width * s.height * s.chans :=
    Nat.mul_le_mul_left _ (by
      rcases h.chans with e | e <;> simp [State.chans, e])
  cases i with
  | togray => exact Nat.le_trans hone hi
  | gray2color => exact h.tripled hid
  | _ => exact hi

end Sys2Proof.Machine
end

