-- ==== Sys2Proof/Laws/Host.lean ====
section
/-! SUPPORT. What each access of the host does as a step, once, and that a running, validated command
ends with the engine's next move (60_exceptions.md R171, R176). -/

namespace Sys2Proof.Machine

/-! ### Decoding a launched word -/

theorem decode_commandWord (p id : Half) : decode (commandWord p id) =
    (if id = 0x0001 then .ok (.histeq p)
    else if id = 0x0002 then .ok (.cstretch p)
    else if id = 0x0003 then .ok (.gamma p)
    else if id = 0x0004 then .ok (.logt p)
    else if id = 0x0005 then .ok (.negative p)
    else if id = 0x0006 then .ok (.gblur p)
    else if id = 0x0007 then .ok (.sharpen p)
    else if id = 0x0008 then .ok (.cartoon p)
    else if id = 0x0009 then .ok (.watercolor p)
    else if id = 0x000A then .ok (.sobel p)
    else if id = 0x0010 then .ok (.togray p)
    else if id = 0x0011 then .ok (.gray2color p)
    else .error (.unassigned id)) := by
  unfold decode
  rw [idField_commandWord, paramField_commandWord]

/-! ### The host's accesses -/

theorem step_of_access {s : State} {rest : List Event} {a : HostAccess}
    (h : s.schedule = .access a :: rest) :
    step s = hostAccess a { s with schedule := rest, turn := .host } := by
  simp only [step, nextMove, runEvent, h]

/-- A CMD write as a step: dropped while BUSY, else a launch. -/
theorem step_of_commandWrite {s : State} {rest : List Event} {w : Word}
    (h : s.schedule = .access (.writeReg 0x00 w) :: rest) :
    step s = .next (commandWrite w { s with schedule := rest, turn := .host }) := by
  rw [step_of_access h, ← runCommandWord_eq w rfl]
  rfl

theorem step_of_writeImgDim {s : State} {rest : List Event} {v : Word}
    (h : s.schedule = .access (.writeReg 0x08 v) :: rest) :
    step s = .next { s with schedule := rest, turn := .host, imgDim := v } := by
  rw [step_of_access h]
  rfl

theorem step_of_writeImgFmt {s : State} {rest : List Event} {v : Word}
    (h : s.schedule = .access (.writeReg 0x0C v) :: rest) :
    step s = .next { s with schedule := rest, turn := .host, imgFmt := imgFmtStored v } := by
  rw [step_of_access h]
  rfl

theorem step_of_writeSrc {s : State} {rest : List Event} {a : Nat} {v : Byte}
    (h : s.schedule = .access (.writeSrc a v) :: rest) (ha : a < s.cap) :
    step s = .next { s with
      schedule := rest
      turn := .host
      src := s.src.write a v
      srcHazard := s.srcHazard || (s.busy && decide (a < s.inputSamples)) } := by
  rw [step_of_access h]
  simp only [hostAccess, writeSrc]
  rw [if_pos ha]
  rfl

/-- What a WRS leaves at each index. -/
theorem writeSrc_srcAt (m : Memory) (epoch a b : Nat) (v : Byte) :
    (m.write a v).read .src epoch b = if b = a then v else m.read .src epoch b :=
  Memory.read_write m .src epoch a b v

/-- The offset of a register, one by one; every other whole-word offset is reserved (R26). -/
theorem regAt_reserved {offset : Nat} (h : 0x14 ≤ offset) : regAt offset = none := by
  simp [regAt, show offset ≠ 0 by omega, show offset ≠ 4 by omega, show offset ≠ 8 by omega,
    show offset ≠ 12 by omega, show offset ≠ 16 by omega]

/-- A register read leaves everything but the replies and the draw counter alone (R46). -/
theorem readReg_cases (offset : Nat) (s : State) :
    (∃ v, readReg offset s = reply (.word v) s) ∨ readReg offset s = replyAnyWord s := by
  unfold readReg
  cases regAt offset with
  | none => exact .inr rfl
  | some r => exact .inl ⟨_, rfl⟩

theorem step_of_readStatus {s : State} {rest : List Event}
    (h : s.schedule = .access (.readReg 0x04) :: rest) :
    step s = .next (reply (.word s.status) { s with schedule := rest, turn := .host }) := by
  rw [step_of_access h]
  rfl

theorem step_of_wait_idle {s : State} {rest : List Event} {polls : Nat}
    (h : s.schedule = .wait polls :: rest) (hb : s.busy = false) :
    step s = .next (reply (.word s.status) { s with schedule := rest, turn := .host }) := by
  have hb' : ({ s with schedule := rest } : State).busy = false := hb
  simp only [step, nextMove, runEvent, h, waitMove, hb']
  rfl

theorem step_of_wait_poll {s : State} {rest : List Event} {n : Nat}
    (h : s.schedule = .wait (n + 1) :: rest) (hb : s.busy = true) :
    step s = .next (reply (.word s.status) { s with schedule := .wait n :: rest, turn := .host }) := by
  have hb' : ({ s with schedule := rest } : State).busy = true := hb
  simp only [step, nextMove, runEvent, h, waitMove, hb']
  rfl

/-- While BUSY, a WAIT that has polled enough leaves the move to the engine and stays pending. -/
theorem step_of_wait_engine {s : State} {rest : List Event}
    (h : s.schedule = .wait 0 :: rest) (hb : s.busy = true) : step s = engineMove s := by
  have hb' : ({ s with schedule := rest } : State).busy = true := hb
  have e : ({ s with schedule := .wait 0 :: rest } : State) = s := by rw [← h]
  simp only [step, nextMove, runEvent, h, waitMove, hb', e, if_true]

/-! ### The engine's move -/

/-- The latch of a validated command holds a row of the table. -/
theorem exists_latched {s : State} (h : Validated s.cap s.latch) :
    ∃ i, s.latch.word = encode i := by
  cases hd : decode s.latch.word with
  | ok i => exact ⟨i, (encode_eq_of_fields (fields_of_decode hd).1 (fields_of_decode hd).2).symm⟩
  | error r =>
    have hn := (id_of_decode_error hd).2
    have hid : idField s.latch.word = s.latch.id := idField_commandWord _ _
    have hk := h.known
    rw [hid] at hn
    simp only [implementedIds, List.mem_cons, List.not_mem_nil, or_false] at hk
    rcases hk with e | e | e | e | e | e
    · exact absurd e.symm (hn (.histeq 0))
    · exact absurd e.symm (hn (.gamma 0))
    · exact absurd e.symm (hn (.gblur 0))
    · exact absurd e.symm (hn (.sobel 0))
    · exact absurd e.symm (hn (.togray 0))
    · exact absurd e.symm (hn (.gray2color 0))

theorem completionOf_done {s : State} {i : Instr} (h : i.implemented = true) :
    (completionOf i s).phase = stateDone := by
  rcases completionOf_cases i s with ⟨c, f, e⟩ | ⟨c, f, tb, e⟩ | ⟨h0, _⟩
  · rw [e]; simp [State.phase]
  · rw [e]; simp [State.phase]
  · rw [h0] at h; cases h

/-- The engine's move completes a running, validated command. -/
theorem engineMove_completes {s : State} {i : Instr} (hb : s.busy = true)
    (hl : s.latch.word = encode i) :
    engineMove s = .next (completionOf i { s with turn := .engine }) := by
  have hd : decode s.latch.word = .ok i := by
    rw [hl, encode, decode_commandWord]
    cases i <;> rfl
  unfold engineMove
  simp only [hb, hd, if_true]
  exact exec_of_completing (s := { s with turn := .engine }) ⟨rfl, hb, hl⟩

end Sys2Proof.Machine
end

