-- ==== Sys2Proof/Laws/Invariant.lean ====
section
/-! SUPPORT. How the launch and the completion step treat the invariant of Sys2Proof/Safety.lean, and
that a move which touches only the model's own fields, IMG_DIM or IMG_FMT keeps it. -/

namespace Sys2Proof.Machine

/-- The invariant does not look at `turn`, `schedule`, `replies`, `epoch`, `draws` or IMG_DIM. -/
theorem inv_of_same {s t : State} (h : s.Inv) (hcmd : t.cmd = s.cmd) (hstatus : t.status = s.status)
    (himgFmt : t.imgFmt &&& 0xFFFFFFFC = 0) (houtFmt : t.outFmt = s.outFmt)
    (hlatch : t.latch = s.latch) (hsrc : t.src = s.src) (hdst : t.dst = s.dst)
    (hlut : t.lut = s.lut) (hcap : t.cap = s.cap) (hhazard : t.srcHazard = s.srcHazard) : t.Inv := by
  obtain ⟨⟨a1, a2, a3, a4, a5, a6⟩, ⟨b1, b2, b3, b4, b5, b6⟩, ⟨c1, c2, c3, c4⟩⟩ := h
  have hp : t.phase = s.phase := by simp [State.phase, hstatus]
  have hb : t.busy = s.busy := by simp [State.busy, hp]
  refine ⟨⟨?_, ?_, ?_, ?_, ?_, ?_⟩, ⟨?_, ?_, himgFmt, ?_, ?_, ?_⟩, ⟨?_, ?_, ?_, ?_⟩⟩ <;>
    simp only [hcmd, hstatus, houtFmt, hlatch, hsrc, hdst, hlut, hcap, hhazard, hp, hb] <;> assumption

theorem phase_launch (w : Word) (s : State) :
    (launch w s).phase = stateBusy ∨ (launch w s).phase = stateError := by
  obtain ⟨_, h⟩ | ⟨e, _, h⟩ := launch_cases w s
  · exact .inl (by rw [h]; simp [State.phase])
  · exact .inr (by rw [h]; simp [State.phase])

theorem errorCode_ne_zero (e : ErrorKind) : e.code ≠ 0 := by cases e <;> decide

theorem inv_launch {s : State} (w : Word) (h : s.Inv) (hb : s.busy = false) : (launch w s).Inv := by
  obtain ⟨⟨a1, a2, a3, a4, a5, a6⟩, ⟨b1, b2, b3, b4, b5, b6⟩, ⟨c1, c2, c3, c4⟩⟩ := h
  have hz : s.srcHazard = false := Bool.eq_false_iff.mpr fun hz => by rw [c4 hz] at hb; cases hb
  have hw : (latchOf w s).word = w := commandWord_fields w
  obtain ⟨hv, h⟩ | ⟨e, hv, h⟩ := launch_cases w s <;> rw [h]
  · have hp : (acceptLaunch (latchCommand w s)).phase = stateBusy := by simp [State.phase]
    refine ⟨⟨a1, a2, a3, a4, a5, a6⟩, ⟨statusReserved_set b1 _ _, ?_, b3,
      outFmtReserved_setOutC b4 _, ?_, ?_⟩, ⟨?_, fun _ => hw, fun _ => hv, fun h => by cases h⟩⟩
    · rw [hp]; simp
    · simp
    · rw [hp]; simp
    · rw [hp]; simp
  · have hp : (raiseError e (latchCommand w s)).phase = stateError := by simp [State.phase]
    refine ⟨⟨a1, a2, a3, a4, a5, a6⟩, ⟨statusReserved_set b1 _ _, ?_, b3,
      outFmtReserved_setOutC b4 _, ?_, ?_⟩, ⟨?_, fun _ => hw, ?_, fun h => ?_⟩⟩
    · rw [hp]; simpa using errorCode_ne_zero e
    · simp
    · rw [hp]; simp
    · rw [hp]; simp
    · rw [State.busy, hp]; simp
    · rw [show (raiseError e (latchCommand w s)).srcHazard = s.srcHazard from rfl, hz] at h
      cases h

theorem inv_deliver {s : State} (cOut : BitVec 2) (f : Nat → Nat → Nat → Byte) (h : s.Inv)
    (hb : s.busy = true) (hc : cOut = 1 ∨ cOut = 3)
    (hcap : s.width * s.height * cOut.toNat ≤ s.cap) : (deliver cOut f s).Inv := by
  obtain ⟨⟨a1, a2, a3, a4, a5, a6⟩, ⟨b1, b2, b3, b4, b5, b6⟩, ⟨c1, c2, c3, c4⟩⟩ := h
  rw [busy_eq_true_iff] at hb
  have hp : (deliver cOut f s).phase = stateDone := by simp [State.phase]
  have he : ¬ errField s.status ≠ 0 := by rw [b2, hb]; decide
  refine ⟨⟨a1, a2, ?_, ?_, a5, a6⟩, ⟨statusReserved_setState b1 _, ?_, b3,
    outFmtReserved_setOutC b4 _, ?_, ?_⟩, ⟨?_, fun _ => c2 (by rw [hb]; decide), ?_,
    fun h => by cases h⟩⟩
  · rw [deliver_dst]; exact wf_storeImage _ a3
  · rw [deliver_dst]; exact below_storeImage _ hcap a4
  · rw [hp]; simpa using he
  · simp; rcases hc with rfl | rfl <;> decide
  · rw [hp]; simp; rcases hc with rfl | rfl <;> decide
  · rw [hp]; simp
  · rw [State.busy, hp]; simp

theorem inv_publishTable {s : State} (f : Nat → Byte) (h : s.Inv) : (publishTable f s).Inv := by
  obtain ⟨⟨a1, a2, a3, a4, a5, a6⟩, ⟨b1, b2, b3, b4, b5, b6⟩, hcommand⟩ := h
  refine ⟨⟨a1, a2, a3, a4, ?_, ?_⟩, ⟨b1, b2, b3, outFmtReserved_setLutValid b4, ?_, ?_⟩,
    ⟨hcommand.1, hcommand.2, hcommand.3, hcommand.4⟩⟩
  · rw [publishTable_lut]; exact wf_storeTable f a5
  · rw [publishTable_lut]; exact below_storeTable f a6
  · rw [publishTable_outFmt, outCField_setLutValidField]; exact b5
  · rw [publishTable_outFmt, outCField_setLutValidField]; exact b6

theorem inv_completionOf {s : State} {i : Instr} (h : s.Inv) (hb : s.busy = true)
    (hl : s.latch.word = encode i) : (completionOf i s).Inv := by
  have hV := validated_of_none (h.command.busyIsValidated hb)
  have hi := implemented_of_validated hV hl
  have hcap := output_le_cap hV hl
  cases i with
  | togray => exact inv_deliver 1 _ h hb (.inl rfl) hcap
  | gray2color => exact inv_deliver 3 _ h hb (.inr rfl) hcap
  | gblur => exact inv_deliver _ _ h hb hV.chans hcap
  | sobel => exact inv_deliver _ _ h hb hV.chans hcap
  | histeq => exact inv_deliver _ _ (inv_publishTable _ h) hb hV.chans hcap
  | gamma => exact inv_deliver _ _ (inv_publishTable _ h) hb hV.chans hcap
  | _ => cases hi

/-- No command writes SRC (R16). -/
theorem exec_src {i : Instr} {s t : State} (h : exec i s = .next t) :
    t.src = s.src ∧ t.epoch = s.epoch := by
  rcases exec_cases i s with ⟨_, e⟩ | ⟨_, e⟩ <;> rw [e] at h <;> cases h
  · unfold commandWrite
    split
    · exact ⟨rfl, rfl⟩
    · exact ⟨(launch_stores _ _).1, (launch_frame _ _).outside.epoch⟩
  · split
    · rcases completionOf_cases i s with ⟨c, f, h⟩ | ⟨c, f, tb, h⟩ | ⟨_, h⟩ <;> rw [h] <;>
        exact ⟨rfl, rfl⟩
    · exact ⟨rfl, rfl⟩

end Sys2Proof.Machine
end

