-- ==== Sys2Proof/Laws/PerInstr.lean ====
section
/-! SUPPORT. One fact for each command: the encoding carries its identifier and its PARAM unchanged. -/

namespace Sys2Proof.Laws.EncodedFields

/-- The two fields of a command's encoding are its identifier and its PARAM (30_encoding.md R61). -/
def Statement (i : Instr) : Prop := idField (encode i) = i.id ∧ paramField (encode i) = i.param

theorem histeq (param : Half) : Statement (.histeq param) := ⟨idField_encode _, paramField_encode _⟩
theorem gamma (g : Half) : Statement (.gamma g) := ⟨idField_encode _, paramField_encode _⟩
theorem gblur (k : Half) : Statement (.gblur k) := ⟨idField_encode _, paramField_encode _⟩
theorem sobel (param : Half) : Statement (.sobel param) := ⟨idField_encode _, paramField_encode _⟩
theorem togray (param : Half) : Statement (.togray param) := ⟨idField_encode _, paramField_encode _⟩
theorem gray2color (param : Half) : Statement (.gray2color param) :=
  ⟨idField_encode _, paramField_encode _⟩
theorem cstretch (param : Half) : Statement (.cstretch param) :=
  ⟨idField_encode _, paramField_encode _⟩
theorem logt (param : Half) : Statement (.logt param) := ⟨idField_encode _, paramField_encode _⟩
theorem negative (param : Half) : Statement (.negative param) :=
  ⟨idField_encode _, paramField_encode _⟩
theorem sharpen (param : Half) : Statement (.sharpen param) :=
  ⟨idField_encode _, paramField_encode _⟩
theorem cartoon (param : Half) : Statement (.cartoon param) :=
  ⟨idField_encode _, paramField_encode _⟩
theorem watercolor (param : Half) : Statement (.watercolor param) :=
  ⟨idField_encode _, paramField_encode _⟩

end Sys2Proof.Laws.EncodedFields
end

