-- ==== Sys2Proof/Laws/Procedures.lean ====
section
/-! SUPPORT. What the pieces of the host's procedures do over several steps (30_encoding.md R69 to R71):
a WAIT, a run of WRS accesses, and CHAIN's copy. -/

namespace Sys2Proof.Machine

theorem Steps.trans {m n : Nat} {s t u : State} (h : Steps m s t) (h' : Steps n t u) :
    Steps (m + n) s u := by
  induction h with
  | none s => rwa [Nat.zero_add]
  | more h₁ _ ih => rw [Nat.add_right_comm]; exact .more h₁ (ih h')

theorem Steps.one {s t : State} (h : step s = .next t) : Steps 1 s t := .more h (.none t)

/-- A WAIT while not BUSY is one read of STATUS. -/
theorem wait_when_idle {s : State} {rest : List Event} {polls : Nat}
    (hs : s.schedule = .wait polls :: rest) (hb : s.busy = false) :
    ∃ replies, Steps 1 s { s with schedule := rest, turn := .host, replies := replies } :=
  ⟨_, Steps.one (step_of_wait_idle hs hb)⟩

/-- A WAIT while BUSY ends with the running command completed. -/
theorem wait_when_busy (polls : Nat) : ∀ {s : State} {rest : List Event} {i : Instr},
    s.schedule = .wait polls :: rest → s.busy = true → s.latch.word = encode i →
    i.implemented = true →
    ∃ n before after, Steps n s
      { completionOf i { s with
          schedule := .wait 0 :: rest, turn := .engine, replies := before } with
        schedule := rest, turn := .host, replies := after } := by
  induction polls with
  | zero =>
    intro s rest i hs hb hl hi
    have h₁ := (step_of_wait_engine hs hb).trans (engineMove_completes hb hl)
    have hsched : (completionOf i { s with turn := .engine }).schedule = .wait 0 :: rest := by
      rcases completionOf_cases i { s with turn := .engine } with
        ⟨c, f, e⟩ | ⟨c, f, table, e⟩ | ⟨_, e⟩ <;> rw [e] <;> exact hs
    have hdone : (completionOf i { s with turn := .engine }).busy = false := by
      rw [busy_eq_false_iff, completionOf_done hi]
      decide
    have h₂ := step_of_wait_idle hsched hdone
    refine ⟨1 + 1, s.replies, .word (completionOf i { s with turn := .engine }).status ::
      (completionOf i { s with turn := .engine }).replies, ?_⟩
    rw [← hs]
    exact (Steps.one h₁).trans (Steps.one h₂)
  | succ polls ih =>
    intro s rest i hs hb hl hi
    have h₁ := step_of_wait_poll hs hb
    obtain ⟨n, before, after, h⟩ := ih
      (s := reply (.word s.status) { s with schedule := .wait polls :: rest, turn := .host })
      rfl hb hl hi
    exact ⟨_, before, after, .more h₁ h⟩

/-- The WRS accesses of APPLY load the samples, while not BUSY, and change nothing else. -/
theorem loadSamples_runs (vs : List Byte) : ∀ (base : Nat) (s : State) (rest : List Event),
    s.busy = false → s.schedule = loadSamples base vs ++ rest →
    ∃ t, Steps vs.length s t ∧ t = { s with schedule := rest, turn := t.turn, src := t.src } ∧
      (∀ a v, vs[a]? = some v → base + a < s.cap → t.srcAt (base + a) = v) ∧
      (∀ a, a < base → t.srcAt a = s.srcAt a) := by
  induction vs with
  | nil =>
    intro base s rest hb hs
    exact ⟨s, .none s, by rw [← show s.schedule = rest from hs], fun a v h => by simp at h,
      fun a h => rfl⟩
  | cons v vs ih =>
    intro base s rest hb hs
    have hs' : s.schedule
        = .access (.writeSrc base v) :: (loadSamples (base + 1) vs ++ rest) := hs
    by_cases hc : base < s.cap
    · have h₁ := step_of_writeSrc hs' hc
      simp only [hb, Bool.false_and, Bool.or_false] at h₁
      obtain ⟨t, k₁, k₂, k₃, k₄⟩ := ih (base + 1) _ rest
        (show ({ s with schedule := _, turn := .host, src := _ } : State).busy = false from hb) rfl
      refine ⟨t, .more h₁ k₁, by rw [k₂], fun a w ha hac => ?_, fun a ha => ?_⟩
      · cases a with
        | zero =>
          simp at ha
          subst ha
          rw [Nat.add_zero, k₄ base (by omega)]
          exact (writeSrc_srcAt _ _ _ _ _).trans (if_pos rfl)
        | succ a =>
          have := k₃ a w (by simpa using ha) (by show base + 1 + a < s.cap; omega)
          rw [← this]
          congr 1
          omega
      · rw [k₄ a (by omega)]
        exact (writeSrc_srcAt _ _ _ _ _).trans (if_neg (by omega))
    · have h₁ : step s = .next
          { s with schedule := loadSamples (base + 1) vs ++ rest, turn := .host } := by
        rw [step_of_access hs']
        simp only [hostAccess, writeSrc]
        rw [if_neg hc]
      obtain ⟨t, k₁, k₂, k₃, k₄⟩ := ih (base + 1) _ rest
        (show ({ s with
          schedule := loadSamples (base + 1) vs ++ rest, turn := .host } : State).busy = false
          from hb) rfl
      refine ⟨t, .more h₁ k₁, by rw [k₂], fun a w ha hac => ?_, fun a ha => ?_⟩
      · omega
      · rw [k₄ a (by omega)]
        rfl

/-- One entry of CHAIN's copy. -/
def chainPair (g : Nat → Byte) (a : Nat) : List Event :=
  [.access (.readDst a), .access (.writeSrc a (g a))]

/-- CHAIN's copy, while not BUSY, writes the given samples to SRC and changes nothing else. -/
theorem chainCopy_runs (l : List Nat) : ∀ (s : State) (rest : List Event) (g : Nat → Byte),
    s.busy = false → (∀ a ∈ l, a < s.cap) → s.schedule = l.flatMap (chainPair g) ++ rest →
    ∃ n t, Steps n s t ∧
      t = { s with schedule := rest, turn := t.turn, src := t.src, replies := t.replies } ∧
      ∀ a, t.srcAt a = if a ∈ l then g a else s.srcAt a := by
  induction l with
  | nil =>
    intro s rest g hb hc hs
    exact ⟨0, s, .none s, by rw [← show s.schedule = rest from hs], fun a => by simp⟩
  | cons a l ih =>
    intro s rest g hb hc hs
    have hs' : s.schedule = .access (.readDst a) :: .access (.writeSrc a (g a)) ::
        (l.flatMap (chainPair g) ++ rest) := hs
    have ha : a < s.cap := hc a List.mem_cons_self
    have h₁ := step_of_access hs'
    simp only [hostAccess, readDst] at h₁
    rw [if_pos ⟨ha, by rw [Bool.not_eq_true']; exact hb⟩] at h₁
    have h₂ := step_of_writeSrc (s := reply (.sample (s.dstAt a)) { s with
      schedule := .access (.writeSrc a (g a)) :: (l.flatMap (chainPair g) ++ rest)
      turn := .host }) rfl ha
    have hb₂ : (reply (.sample (s.dstAt a)) { s with
      schedule := .access (.writeSrc a (g a)) :: (l.flatMap (chainPair g) ++ rest)
      turn := .host }).busy = false := hb
    simp only [hb₂, Bool.false_and, Bool.or_false] at h₂
    obtain ⟨n, t, k₁, k₂, k₃⟩ := ih { reply (.sample (s.dstAt a)) s with
      schedule := l.flatMap (chainPair g) ++ rest, turn := .host, src := s.src.write a (g a) }
      rest g hb (fun b hb => hc b (List.mem_cons_of_mem _ hb)) rfl
    refine ⟨_, t, .more h₁ (.more h₂ k₁), by rw [k₂]; rfl, fun b => ?_⟩
    rw [k₃ b]
    by_cases hbl : b ∈ l
    · simp [hbl]
    · rw [if_neg hbl]
      refine (writeSrc_srcAt _ _ _ _ _).trans ?_
      by_cases e : b = a
      · subst e; simp
      · rw [if_neg e, if_neg (by simp [e, hbl])]
        rfl

end Sys2Proof.Machine
end

