-- ==== Sys2Proof/Laws/Sobel.lean ====
section
/-! SUPPORT. The gradients, the magnitude and the normalisation of SOBEL (45_sobel_edge_detector.md
R142 to R147): what each returns, once. -/

namespace Sys2Proof.Machine

/-- The search is the integer square root (R144). -/
theorem isqrt_spec (n : Nat) : isqrt n * isqrt n ≤ n ∧ n < (isqrt n + 1) * (isqrt n + 1) :=
  isqrtBits_spec n _ 0 (Nat.zero_le _) (lt_isqrt_start n)

theorem isqrt_zero : isqrt 0 = 0 :=
  sqrt_unique (isqrt_spec 0).1 (isqrt_spec 0).2 (Nat.le_refl _) (by omega)

theorem isqrt_mono {m n : Nat} (h : m ≤ n) : isqrt m ≤ isqrt n := by
  by_contra hlt
  have h1 := (isqrt_spec m).1
  have h2 := (isqrt_spec n).2
  have h3 := Nat.mul_self_le_mul_self (show isqrt n + 1 ≤ isqrt m by omega)
  omega

theorem grayNear_bounds (s : State) (y x : Nat) (dy dx : Int) :
    0 ≤ s.grayNear y x dy dx ∧ s.grayNear y x dy dx ≤ 255 := by
  unfold State.grayNear
  have := (s.gray (refl (y + dy) s.height) (refl (x + dx) s.width)).isLt
  omega

/-- R145: the range of GX. -/
theorem gradX_bounds (s : State) (y x : Nat) : -1020 ≤ s.gradX y x ∧ s.gradX y x ≤ 1020 := by
  unfold State.gradX
  have h1 := grayNear_bounds s y x (-1) 1
  have h2 := grayNear_bounds s y x 0 1
  have h3 := grayNear_bounds s y x 1 1
  have h4 := grayNear_bounds s y x (-1) (-1)
  have h5 := grayNear_bounds s y x 0 (-1)
  have h6 := grayNear_bounds s y x 1 (-1)
  dsimp only
  omega

/-- R145: the range of GY. -/
theorem gradY_bounds (s : State) (y x : Nat) : -1020 ≤ s.gradY y x ∧ s.gradY y x ≤ 1020 := by
  unfold State.gradY
  have h1 := grayNear_bounds s y x 1 (-1)
  have h2 := grayNear_bounds s y x 1 0
  have h3 := grayNear_bounds s y x 1 1
  have h4 := grayNear_bounds s y x (-1) (-1)
  have h5 := grayNear_bounds s y x (-1) 0
  have h6 := grayNear_bounds s y x (-1) 1
  dsimp only
  omega

theorem gradSquared_eq (s : State) (y x : Nat) :
    (s.gradSquared y x : Int) = s.gradX y x * s.gradX y x + s.gradY y x * s.gradY y x := by
  unfold State.gradSquared
  have h1 := mul_self_nonneg (s.gradX y x)
  have h2 := mul_self_nonneg (s.gradY y x)
  omega

/-- M = isqrt(S·65536). -/
theorem magnitude_eq (s : State) (y x : Nat) :
    s.magnitude y x = isqrt (s.gradSquared y x * 65536) := by
  rw [State.magnitude, Nat.shiftLeft_eq]

/-- R146, R147: the output intensity as a number, for a magnitude between MMIN and MMAX. -/
theorem normalise_toNat {mmin mmax m : Nat} (h : m ≤ mmax) :
    (normalise mmin (mmax - mmin) m).toNat =
      if mmax - mmin = 0 then 0
      else (510 * (m - mmin) + (mmax - mmin)) / (2 * (mmax - mmin)) := by
  unfold normalise
  split
  · rfl
  · rename_i hd
    have hb : (2 * (255 * (m - mmin)) + (mmax - mmin)) / (2 * (mmax - mmin)) ≤ 255 := by
      rw [Nat.div_le_iff_le_mul_add_pred (by omega)]
      omega
    rw [sat8_rndDiv hb, ← Nat.mul_assoc]

/-- The two reductions of SOBEL are the ends of the magnitudes' range. -/
theorem magnitudeRange_of_magnitudes {s : State} (hw : 0 < s.width) (hh : 0 < s.height) :
    s.MagnitudeRange (listMin s.magnitudes) (listMax s.magnitudes) := by
  have hmem : ∀ m, m ∈ s.magnitudes ↔ ∃ y x, s.hasPixel y x ∧ s.magnitude y x = m := by
    intro m
    simp [State.magnitudes, mem_pixels, State.hasPixel]
  have hne : s.magnitudes ≠ [] := List.ne_nil_of_mem ((hmem _).mpr ⟨0, 0, ⟨hh, hw⟩, rfl⟩)
  obtain ⟨h1, h2⟩ := listMin_spec hne
  obtain ⟨h3, h4⟩ := listMax_spec hne
  exact ⟨fun y x hp => h1 _ ((hmem _).mpr ⟨y, x, hp, rfl⟩),
    fun y x hp => h3 _ ((hmem _).mpr ⟨y, x, hp, rfl⟩), (hmem _).mp h2, (hmem _).mp h4⟩

/-- The range has one pair of ends. -/
theorem MagnitudeRange.unique {s : State} {a b a' b' : Nat} (h : s.MagnitudeRange a b)
    (h' : s.MagnitudeRange a' b') : a = a' ∧ b = b' := by
  obtain ⟨_, _, p1, e1⟩ := h.lowerTaken
  obtain ⟨_, _, p2, e2⟩ := h.upperTaken
  obtain ⟨_, _, p3, e3⟩ := h'.lowerTaken
  obtain ⟨_, _, p4, e4⟩ := h'.upperTaken
  have := h'.lower _ _ p1
  have := h'.upper _ _ p2
  have := h.lower _ _ p3
  have := h.upper _ _ p4
  omega

/-! ### What SOBEL leaves -/

theorem dstAt_completeSobel {s : State} (h : s.srcHazard = false) {y x c mmin mmax : Nat}
    (hr : s.MagnitudeRange mmin mmax) (hp : s.hasPixel y x) (hc : c < s.chans) :
    (completeSobel s).dstAt (idx s.width s.chans y x c)
      = normalise mmin (mmax - mmin) (s.magnitude y x) := by
  obtain ⟨e1, e2⟩ := MagnitudeRange.unique hr
    (magnitudeRange_of_magnitudes (by have := hp.2; omega) (by have := hp.1; omega))
  rw [e1, e2]
  unfold completeSobel expand
  refine (deliver_dstAt s.latch.c _ hp hc).trans ?_
  exact settled_of_undisturbed h _ _ _

theorem SameInput.magnitude {s t : State} (h : SameInput s t)
    (hc : s.latch.c = 1 ∨ s.latch.c = 3) {y x : Nat} (hp : s.hasPixel y x) :
    t.magnitude y x = s.magnitude y x := by
  have hg : ∀ dy dx, t.grayNear y x dy dx = s.grayNear y x dy dx := fun dy dx => by
    unfold State.grayNear
    rw [h.width, h.height, h.gray hc ⟨refl_lt _ (by have := hp.1; omega),
      refl_lt _ (by have := hp.2; omega)⟩]
  simp only [magnitude_eq, State.gradSquared, State.gradX, State.gradY, hg]

theorem SameInput.magnitudeRange {s t : State} (h : SameInput s t)
    (hc : s.latch.c = 1 ∨ s.latch.c = 3) {mmin mmax : Nat} (hr : s.MagnitudeRange mmin mmax) :
    t.MagnitudeRange mmin mmax := by
  have hpix : ∀ y x, t.hasPixel y x ↔ s.hasPixel y x := fun y x => by
    unfold State.hasPixel
    rw [h.width, h.height]
  obtain ⟨y₁, x₁, hp₁, e₁⟩ := hr.lowerTaken
  obtain ⟨y₂, x₂, hp₂, e₂⟩ := hr.upperTaken
  refine ⟨fun y x hp => ?_, fun y x hp => ?_, ⟨y₁, x₁, (hpix _ _).mpr hp₁, ?_⟩,
    ⟨y₂, x₂, (hpix _ _).mpr hp₂, ?_⟩⟩
  · rw [h.magnitude hc ((hpix _ _).mp hp)]
    exact hr.lower _ _ ((hpix _ _).mp hp)
  · rw [h.magnitude hc ((hpix _ _).mp hp)]
    exact hr.upper _ _ ((hpix _ _).mp hp)
  · rw [h.magnitude hc hp₁, e₁]
  · rw [h.magnitude hc hp₂, e₂]

end Sys2Proof.Machine
end

