-- ==== Sys2Proof/Tests/Slice0.lean ====
section
/-! SUPPORT. Tests: every expected value is from spec/95_test_vectors.md or a rule of spec/; and, for
every obligation with hypotheses, a witness that meets them all. -/

namespace Sys2Proof.Machine

/-! ### Small states -/

/-- The outcome is a next state that satisfies `p`. -/
def landed (o : Host.Outcome State Fault Refusal) (p : State → Bool) : Bool :=
  match o with
  | .next t => p t
  | .fault _ => false
  | .refused _ => false

/-- The outcome is the model's one refusal. -/
def refusedWord (o : Host.Outcome State Fault Refusal) : Bool :=
  match o with
  | .refused r => decide (r = .registerAccessNotWholeWord)
  | .next _ => false
  | .fault _ => false

/-- Samples listed from an index on. -/
def listed : Nat → List Byte → Memory
  | _, [] => []
  | a, v :: vs => (a, v) :: listed (a + 1) vs

/-- After reset, with a geometry and an input image; nothing launched. -/
def ready (w h : Half) (c : BitVec 2) (image : List Byte) : State :=
  { State.reset with imgDim := h ++ w, imgFmt := c.setWidth 32, src := listed 0 image }

/-- `i` launched on that image and running, the engine to move. -/
def running (i : Instr) (w h : Half) (c : BitVec 2) (image : List Byte) : State :=
  { ready w h c image with
    cmd := encode i
    status := 1
    latch := { id := i.id, param := i.param, w := w, h := h, c := c }
    turn := .engine }

/-- The samples DST holds from 0 on. -/
def dstIs (t : State) (expected : List Nat) : Bool :=
  (List.range expected.length).map (fun a => (t.dstAt a).toNat) == expected

/-- The state with one event to come. -/
def facing (e : Event) (s : State) : State := { s with schedule := [e] }

/-! ### WellFormed: what each check refuses (R161, R64, R65, R66) -/

theorem test_wellFormed_refuses_reserved : (Instr.negative 0).wellFormed = false := by decide
theorem test_wellFormed_refuses_cstretch : (Instr.cstretch 0x1234).wellFormed = false := by decide
theorem test_wellFormed_refuses_gamma_zero : (Instr.gamma 0).wellFormed = false := by decide
theorem test_wellFormed_refuses_gamma_minus_one :
    (Instr.gamma 0xFF00).wellFormed = false := by decide
theorem test_wellFormed_refuses_even_kernel : (Instr.gblur 4).wellFormed = false := by decide
theorem test_wellFormed_refuses_kernel_1_and_23 :
    (Instr.gblur 1).wellFormed = false ∧ (Instr.gblur 23).wellFormed = false := by decide
theorem test_wellFormed_refuses_kernel_unsigned :
    (Instr.gblur 0xFFFD).wellFormed = false := by decide
theorem test_wellFormed_accepts :
    (Instr.gamma 1).wellFormed = true ∧ (Instr.gamma 0x7FFF).wellFormed = true ∧
    (Instr.gblur 3).wellFormed = true ∧ (Instr.gblur 21).wellFormed = true ∧
    (Instr.histeq 0xABCD).wellFormed = true := by decide

/-! ### Decoding: a word written out bit by bit for every constructor (R61, R63, R68) -/

theorem test_decode_histeq :
    decode 0b00000000000000000000000000000001 = .ok (.histeq 0) := by decide
theorem test_decode_cstretch :
    decode 0b00000000000000000000000000000010 = .ok (.cstretch 0) := by decide
theorem test_decode_gamma :
    decode 0b00000010001100110000000000000011 = .ok (.gamma 563) := by decide
theorem test_decode_logt :
    decode 0b00000000000000000000000000000100 = .ok (.logt 0) := by decide
theorem test_decode_negative :
    decode 0b00000000000000000000000000000101 = .ok (.negative 0) := by decide
theorem test_decode_gblur :
    decode 0b00000000000101010000000000000110 = .ok (.gblur 21) := by decide
theorem test_decode_sharpen :
    decode 0b00000000000000000000000000000111 = .ok (.sharpen 0) := by decide
theorem test_decode_cartoon :
    decode 0b00000000000000000000000000001000 = .ok (.cartoon 0) := by decide
theorem test_decode_watercolor :
    decode 0b00000000000000000000000000001001 = .ok (.watercolor 0) := by decide
theorem test_decode_sobel :
    decode 0b00000000000000000000000000001010 = .ok (.sobel 0) := by decide
theorem test_decode_togray :
    decode 0b00000000000000000000000000010000 = .ok (.togray 0) := by decide
theorem test_decode_gray2color :
    decode 0b00000000000000000000000000010001 = .ok (.gray2color 0) := by decide
theorem test_decode_compares_all_id_bits :
    decode 0b00000000000000110000000100000110 = .error (.unassigned 0x0106) := by decide
theorem test_decodeTableWord :
    decodeTableWord 32 0x00150006 = some (.gblur 21) ∧
    decodeTableWord 16 0x00150006 = some (.gblur 0) ∧
    decodeTableWord 32 0 = none := by decide

/-! ### Arithmetic (95_test_vectors.md 2.2, 2.3, 2.4, 2.7) -/

theorem test_rndDiv :
    rndDiv 7 2 = 4 ∧ rndDiv 255 4 = 64 ∧ rndDiv 510 4 = 128 ∧ rndDiv (-1) 2 = 0 ∧
    rndDiv (-3) 2 = -1 ∧
    rndDiv (-5) 4 = -1 ∧ rndDiv 65407 256 = 255 ∧ rndDiv 65408 256 = 256 := by decide
theorem test_sat8 :
    sat8 (-1020) = 0 ∧ sat8 (-1) = 0 ∧ sat8 254 = 254 ∧ sat8 256 = 255 ∧
    sat8 1275 = 255 := by decide
theorem test_roundShift : roundShift 942080 14 = 58 ∧ roundShift (2 ^ 31 - 1) 32 = 0 ∧
    roundShift (2 ^ 31) 32 = 1 := by decide
theorem test_idx :
    idx 4 3 2 1 1 = 28 ∧ idx 4 1 2 1 0 = 9 ∧ idx 65535 3 0 65534 2 = 196604 := by decide
theorem test_refl_5 :
    [-3, -2, -1, 0, 1, 2, 3, 4, 5, 6, 7].map (fun i => refl i 5)
      = [2, 1, 0, 0, 1, 2, 3, 4, 4, 3, 2] := by decide
theorem test_refl_2 :
    [-4, -3, -2, -1, 0, 1, 2, 3, 4, 5].map (fun i => refl i 2) = [0, 1, 1, 0, 0, 1, 1, 0, 0, 1] := by
  decide
theorem test_luma :
    luma 255 0 0 = 29 ∧ luma 0 255 0 = 150 ∧ luma 0 0 255 = 76 ∧ luma 200 100 50 = 96 ∧
    luma 0 46 102 = 58 ∧ luma 4 0 0 = 0 ∧ luma 5 0 0 = 1 := by decide
theorem test_isqrt :
    [0, 1, 2, 100, 200, 10000, 130050, 1040400, 2080800].map (fun s => isqrt (s * 65536))
      = [0, 256, 362, 2560, 3620, 25600, 92319, 261120, 369279] := by decide +kernel
theorem test_gammaEntry_half :
    [0, 1, 64, 127, 192, 254, 255].map (fun i => (gammaEntry i 128).toNat)
      = [0, 16, 128, 180, 221, 254, 255] := by decide +kernel
theorem test_gammaEntry_steep :
    [200, 250, 254].map (fun i => (gammaEntry i 32767).toNat) = [0, 20, 154] := by decide +kernel

/-! ### The launch and the errors (95_test_vectors.md 2.8) -/

theorem test_launch_gamma_negative_E1 : landed (exec (.gamma 0xFF00) (ready 2 2 1 [])) (fun t =>
    t.status == 0x33 && t.outFmt == 0 && t.cmd == 0xFF000003) = true := by decide
theorem test_launch_negative_E4 : landed (exec (.negative 0) (ready 2 2 3 [])) (fun t =>
    t.status == 0x23) = true := by decide
theorem test_launch_cstretch_E4 : landed (exec (.cstretch 0) (ready 2 2 3 [])) (fun t =>
    t.status == 0x23) = true := by decide
theorem test_launch_logt : landed (exec (.logt 9) (ready 2 2 3 [])) (fun t =>
    t.status == 0x23 && t.cmd == 0x00090004) = true := by decide
theorem test_launch_sharpen : landed (exec (.sharpen 0) (ready 2 2 3 [])) (fun t =>
    t.status == 0x23) = true := by decide
theorem test_launch_cartoon : landed (exec (.cartoon 0) (ready 2 2 3 [])) (fun t =>
    t.status == 0x23) = true := by decide
theorem test_launch_watercolor : landed (exec (.watercolor 0) (ready 2 2 3 [])) (fun t =>
    t.status == 0x23) = true := by decide
theorem test_launch_unassigned_E3 :
    landed (step (facing (.access (.writeReg 0 0x0000FFFF)) (ready 2 2 1 []))) (fun t =>
      t.status == 0x23 && t.cmd == 0x0000FFFF) = true := by decide
theorem test_launch_gray2color_output_over_cap_E13 :
    landed (exec (.gray2color 0) { ready 3 2 1 [] with cap := 12 })
      (fun t => t.status == 0x13) = true := by
  decide
theorem test_launch_togray_no_channels_E11 :
    landed (exec (.togray 0) (ready 2 2 0 [])) (fun t => t.status == 0x13) = true := by decide
theorem test_launch_at_cap_E14 :
    landed (exec (.histeq 0) { ready 2 2 3 [] with cap := 12 }) (fun t =>
      t.status == 0x01 && t.outFmt == 0 && t.latch == ⟨1, 0, 2, 2, 3⟩) = true := by decide
theorem test_fetchWord_runs_after_reset_E17 :
    landed (step (State.reset.withFetchWord 32 0x00000001)) (fun t =>
      t.status == 0x13 && t.cmd == 0x00000001) = true := by decide

/-! ### The completions (95_test_vectors.md 2.3 to 2.7) -/

theorem test_togray : landed (exec (.togray 0) (running (.togray 0) 2 1 3 [255, 0, 0, 10, 20, 30]))
    (fun t => dstIs t [29, 22] && t.outFmt == 1 && t.status == 2) = true := by decide
theorem test_gray2color : landed (exec (.gray2color 0) (running (.gray2color 0) 2 1 1 [9, 200]))
    (fun t => dstIs t [9, 9, 9, 200, 200, 200] && t.outFmt == 3 && t.status == 2)
      = true := by decide
theorem test_histeq_HE1 : landed (exec (.histeq 0) (running (.histeq 0) 2 2 1 [0, 0, 0, 255]))
    (fun t => dstIs t [191, 191, 191, 255] && (t.lutAt 254).toNat == 191 && t.outFmt == 0x101) = true := by
  decide +kernel
theorem test_gamma_GA4 :
    landed (exec (.gamma 128) (running (.gamma 128) 2 1 3 [10, 20, 30, 200, 100, 50]))
      (fun t => dstIs t [75, 75, 75, 156, 156, 156] && t.outFmt == 0x103 && t.status == 2) = true := by
  decide +kernel
theorem test_gblur_GB8 : landed (exec (.gblur 3) (running (.gblur 3) 2 1 1 [0, 255]))
    (fun t => dstIs t [61, 194] && t.outFmt == 1 && t.status == 2) = true := by decide +kernel
theorem test_gblur_GB10 : landed (exec (.gblur 21) (running (.gblur 21) 2 1 1 [0, 255]))
    (fun t => dstIs t [128, 127]) = true := by decide +kernel
theorem test_sobel_SO9 : landed (exec (.sobel 0) (running (.sobel 0) 4 1 1 [0, 10, 30, 60]))
    (fun t => dstIs t [0, 128, 255, 128] && t.outFmt == 1 && t.status == 2)
      = true := by decide +kernel
theorem test_sobel_SO8 : landed (exec (.sobel 0) (running (.sobel 0) 1 4 1 [0, 100, 100, 0]))
    (fun t => dstIs t [0, 0, 0, 0]) = true := by decide +kernel

/-! ### The host's accesses and reset -/

theorem test_imgFmt_keeps_two_bits :
    landed (step (facing (.access (.writeReg 0x0C 0xFFFFFFFE)) State.reset)) (fun t =>
      t.imgFmt == 2) = true := by decide
theorem test_read_status_while_busy :
    landed (step (facing (.access (.readReg 0x04)) (running (.sobel 0) 1 1 1 [7]))) (fun t =>
      t.replies == [.word 1] && t.status == 1) = true := by decide
theorem test_write_cap_is_ignored :
    landed (step (facing (.access (.writeSrc 4 9)) { State.reset with cap := 4 })) (fun t =>
      t.src == []) = true := by decide
theorem test_write_keeps_order :
    landed (step (facing (.access (.writeSrc 1 9)) (ready 3 1 1 [5, 6, 7]))) (fun t =>
      t.src == [(0, 5), (1, 9), (2, 7)]) = true := by decide
theorem test_write_input_while_busy_disturbs :
    landed (step (facing (.access (.writeSrc 2 9)) (running (.sobel 0) 3 1 1 [5, 6, 7]))) (fun t =>
      t.srcHazard && t.busy) = true := by decide
theorem test_write_beyond_input_while_busy_is_harmless :
    landed (step (facing (.access (.writeSrc 3 9)) (running (.sobel 0) 3 1 1 [5, 6, 7]))) (fun t =>
      !t.srcHazard && t.busy) = true := by decide
theorem test_reset_while_busy :
    landed (step (facing .reset (running (.sobel 0) 3 1 1 [5, 6, 7]))) (fun t =>
      t.status == 0 && t.cmd == 0 && t.imgDim == 0 && t.src == [] && t.epoch == 1)
      = true := by decide
theorem test_engine_runs_when_nothing_is_scheduled :
    landed (step (running (.togray 0) 1 1 1 [7]))
      (fun t => dstIs t [7] && t.status == 2) = true := by
  decide
theorem test_narrow_access_is_refused :
    refusedWord (step (facing (.access (.narrowRead 0x04 1)) State.reset)) = true := by decide

/-! ### Witnesses: encoding, reset, launch -/

theorem witness_unassigned_first : (0x000B : Half) ≤ 0x000B ∧ (0x000B : Half) ≤ 0x000F := by decide
theorem witness_unassigned_last : (0x000B : Half) ≤ 0x000F ∧ (0x000F : Half) ≤ 0x000F := by decide
theorem witness_unassigned_above : (0x0012 : Half) ≤ 0x0012 ∧ (0x0012 : Half) ≤ 0xFFFF := by decide
theorem witness_decoded_word :
    decode 0x00150006 = .ok (.gblur 21) ∧ encode (.gblur 21) = 0x00150006 := by
  decide
theorem witness_reset_scheduled :
    (facing .reset (running (.sobel 0) 1 1 1 [7])).schedule = .reset :: [] := by decide

/-- The six clauses of StepRunsTheDecodedCommand. -/
theorem witness_step_command_write :
    (facing (.access (.writeReg 0x00 0x0000000A)) (ready 1 1 1 [7])).schedule
      = .access (.writeReg 0x00 0x0000000A) :: [] ∧ decode 0x0000000A = .ok (.sobel 0) := by decide
theorem witness_step_mnemonic :
    (facing (mnemonicLine (.sobel 0)) (ready 1 1 1 [7])).schedule = mnemonicLine (.sobel 0) :: [] := by
  decide
theorem witness_step_engine :
    (facing .engine (running (.sobel 0) 1 1 1 [7])).schedule = .engine :: [] ∧
    (facing .engine (running (.sobel 0) 1 1 1 [7])).busy = true ∧
    decode (facing .engine (running (.sobel 0) 1 1 1 [7])).latch.word = .ok (.sobel 0) := by decide
theorem witness_step_nothing_scheduled :
    (running (.sobel 0) 1 1 1 [7]).schedule = [] ∧ (running (.sobel 0) 1 1 1 [7]).busy = true ∧
    decode (running (.sobel 0) 1 1 1 [7]).latch.word = .ok (.sobel 0) := by decide
theorem witness_step_wait :
    (facing (.wait 0) (running (.sobel 0) 1 1 1 [7])).schedule = .wait 0 :: [] ∧
    (facing (.wait 0) (running (.sobel 0) 1 1 1 [7])).busy = true ∧
    decode (facing (.wait 0) (running (.sobel 0) 1 1 1 [7])).latch.word
      = .ok (.sobel 0) := by decide
theorem witness_step_table_word : decodeTableWord 32 0x00000010 = some (.togray 0) := by decide

theorem witness_accepted_launch :
    (ready 1 1 1 [7]).turn = .host ∧ (ready 1 1 1 [7]).busy = false ∧
    validate (ready 1 1 1 [7]).cap (latchedBy (.sobel 0) (ready 1 1 1 [7])) = none := by decide
theorem witness_refused_parameter :
    (ready 1 1 1 []).turn = .host ∧ (ready 1 1 1 []).busy = false ∧
    validate (ready 1 1 1 []).cap (latchedBy (.gblur 1) (ready 1 1 1 [])) = some .invalidParameter := by
  decide
theorem witness_refused_buffer :
    (ready 0 1 1 []).turn = .host ∧ (ready 0 1 1 []).busy = false ∧
    validate (ready 0 1 1 []).cap (latchedBy (.sobel 0) (ready 0 1 1 [])) = some .invalidBuffer := by
  decide
theorem witness_refused_filter :
    (ready 1 1 1 []).turn = .host ∧ (ready 1 1 1 []).busy = false ∧
    validate (ready 1 1 1 []).cap (latchedBy (.logt 0) (ready 1 1 1 [])) = some .unknownFilter := by decide
theorem witness_refused_word :
    (facing (.access (.writeReg 0x00 ((1 : Half) ++ (0xFFFF : Half)))) (ready 1 1 1 [])).schedule
      = .access (.writeReg 0x00 ((1 : Half) ++ (0xFFFF : Half))) :: [] ∧
    (facing (.access (.writeReg 0x00 ((1 : Half) ++ (0xFFFF : Half)))) (ready 1 1 1 [])).busy = false ∧
    validate (ready 1 1 1 []).cap { id := 0xFFFF, param := 1, w := 1, h := 1, c := 1 }
      = some .unknownFilter := by decide
theorem witness_reserved_launch :
    (ready 1 1 1 []).turn = .host ∧ (ready 1 1 1 []).busy = false := by decide
theorem witness_dropped_write :
    { running (.sobel 0) 1 1 1 [7] with turn := .host }.turn = .host ∧
    { running (.sobel 0) 1 1 1 [7] with turn := .host }.busy = true := by decide
theorem witness_dropped_write_step :
    (facing (.access (.writeReg 0x00 0x00000001)) (running (.sobel 0) 1 1 1 [7])).schedule
      = .access (.writeReg 0x00 0x00000001) :: [] ∧
    (facing (.access (.writeReg 0x00 0x00000001)) (running (.sobel 0) 1 1 1 [7])).busy
      = true := by decide

/-- The boundary values of the four clauses of ValidationReportsTheFirstFailure: each latch falls under
one clause only. -/
theorem test_validate_boundaries :
    validate 12 { id := 0x0003, param := 0x7FFF, w := 4, h := 3, c := 1 } = none ∧
    validate 12 { id := 0x0003, param := 0x8000, w := 0, h := 3, c := 2 } = some .invalidParameter ∧
    validate 12 { id := 0x0006, param := 21, w := 2, h := 2, c := 3 } = none ∧
    validate 12 { id := 0x0006, param := 22, w := 2, h := 2, c := 3 } = some .invalidParameter ∧
    validate 12 { id := 0x0010, param := 0, w := 13, h := 1, c := 1 } = some .invalidBuffer ∧
    validate 12 { id := 0x0011, param := 0, w := 2, h := 2, c := 1 } = none ∧
    validate 12 { id := 0x0011, param := 0, w := 5, h := 1, c := 1 } = some .invalidBuffer ∧
    validate 12 { id := 0x0011, param := 0, w := 2, h := 2, c := 3 } = some .invalidBuffer ∧
    validate 12 { id := 0x0001, param := 0, w := 2, h := 2, c := 2 } = some .invalidBuffer ∧
    validate 12 { id := 0x000A, param := 0, w := 0, h := 2, c := 3 } = some .invalidBuffer ∧
    validate 12 { id := 0x0012, param := 0, w := 0, h := 0, c := 0 } = some .unknownFilter := by decide

/-! ### Witnesses: completion -/

theorem completing_running (i : Instr) (w h : Half) (c : BitVec 2) (image : List Byte) :
    CompletingUndisturbed i (running i w h c image) := ⟨⟨rfl, rfl, rfl⟩, rfl⟩

theorem completes (i : Instr) (w h : Half) (c : BitVec 2) (image : List Byte) :
    ∃ t, exec i (running i w h c image) = .next t :=
  ⟨_, exec_of_completing (completing_running i w h c image).completing⟩

theorem witness_togray : CompletingUndisturbed (.togray 0) (running (.togray 0) 1 1 3 [1, 2, 3]) ∧
    (running (.togray 0) 1 1 3 [1, 2, 3]).hasPixel 0 0 :=
  ⟨completing_running _ _ _ _ _, by decide, by decide⟩
theorem witness_gray2color :
    CompletingUndisturbed (.gray2color 0) (running (.gray2color 0) 1 1 1 [7]) ∧
    (running (.gray2color 0) 1 1 1 [7]).hasPixel 0 0 :=
  ⟨completing_running _ _ _ _ _, by decide, by decide⟩
theorem witness_histeq : CompletingUndisturbed (.histeq 0) (running (.histeq 0) 1 1 1 [7]) ∧
    0 < (running (.histeq 0) 1 1 1 [7]).width ∧ 0 < (running (.histeq 0) 1 1 1 [7]).height :=
  ⟨completing_running _ _ _ _ _, by decide, by decide⟩
theorem witness_gamma : CompletingUndisturbed (.gamma 256) (running (.gamma 256) 1 1 1 [7]) ∧
    0 < (256 : Half).toInt ∧ (running (.gamma 256) 1 1 1 [7]).latch.c = 1 :=
  ⟨completing_running _ _ _ _ _, by decide, rfl⟩
theorem witness_gamma_other :
    CompletingUndisturbed (.gamma 1) (running (.gamma 1) 1 1 3 [7, 8, 9]) ∧
    0 < (1 : Half).toInt := ⟨completing_running _ _ _ _ _, by decide⟩
theorem witness_gblur : CompletingUndisturbed (.gblur 3) (running (.gblur 3) 1 1 1 [7]) ∧
    (running (.gblur 3) 1 1 1 [7]).hasPixel 0 0 :=
  ⟨completing_running _ _ _ _ _, by decide, by decide⟩
theorem witness_sobel : CompletingUndisturbed (.sobel 0) (running (.sobel 0) 1 1 1 [7]) ∧
    (running (.sobel 0) 1 1 1 [7]).hasPixel 0 0 :=
  ⟨completing_running _ _ _ _ _, by decide, by decide⟩

/-- SOBEL on [0, 10, 30, 60] (vector SO9): MMIN = 10240, MMAX = 51200. -/
theorem witness_magnitudes :
    (running (.sobel 0) 4 1 1 [0, 10, 30, 60]).magnitudes = [10240, 30720, 51200, 30720] := by
  decide +kernel
theorem witness_magnitudeRange :
    CompletingUndisturbed (.sobel 0) (running (.sobel 0) 4 1 1 [0, 10, 30, 60]) ∧
    (∃ t, exec (.sobel 0) (running (.sobel 0) 4 1 1 [0, 10, 30, 60]) = .next t) ∧
    (running (.sobel 0) 4 1 1 [0, 10, 30, 60]).MagnitudeRange 10240 51200 ∧ 10240 < 51200 := by
  have h := magnitudeRange_of_magnitudes (s := running (.sobel 0) 4 1 1 [0, 10, 30, 60])
    (by decide) (by decide)
  rw [witness_magnitudes] at h
  exact ⟨completing_running _ _ _ _ _, completes _ _ _ _ _, h, by decide⟩
/-- A flat image, for SobelSpansTheFullRangeUnlessFlat and HisteqTableIsMonotoneAndReachesWhite. -/
theorem witness_flat (i : Instr) : CompletingUndisturbed i (running i 1 1 1 [7]) ∧
    (∃ t, exec i (running i 1 1 1 [7]) = .next t) ∧ 0 < (running i 1 1 1 [7]).width ∧
    0 < (running i 1 1 1 [7]).height ∧
    ∀ y x, (running i 1 1 1 [7]).hasPixel y x → (running i 1 1 1 [7]).gray y x = 7 := by
  refine ⟨completing_running _ _ _ _ _, completes _ _ _ _ _, Nat.one_pos, Nat.one_pos, ?_⟩
  rintro y x ⟨hy, hx⟩
  have h1 : y = 0 := Nat.lt_one_iff.mp hy
  have h2 : x = 0 := Nat.lt_one_iff.mp hx
  subst h1 h2
  rfl
theorem witness_disturbed : (Instr.histeq 0).implemented = true ∧
    Completing (.histeq 0) { running (.histeq 0) 1 1 1 [7] with srcHazard := true } ∧
    { running (.histeq 0) 1 1 1 [7] with srcHazard := true }.srcHazard = true :=
  ⟨rfl, ⟨rfl, rfl, rfl⟩, rfl⟩
theorem witness_disturbed_gamma : (Instr.gamma 256).implemented = true ∧
    Completing (.gamma 256) { running (.gamma 256) 1 1 1 [7] with srcHazard := true } ∧
    { running (.gamma 256) 1 1 1 [7] with srcHazard := true }.srcHazard = true ∧
    0 < (256 : Half).toInt :=
  ⟨rfl, ⟨rfl, rfl, rfl⟩, rfl, by decide⟩
theorem witness_disturbed_no_table : (Instr.togray 0).implemented = true ∧
    Completing (.togray 0) { running (.togray 0) 1 1 1 [7] with srcHazard := true } ∧
    { running (.togray 0) 1 1 1 [7] with srcHazard := true }.srcHazard = true ∧
    (∀ p, Instr.togray 0 ≠ .histeq p) ∧ (∀ g, Instr.togray 0 ≠ .gamma g) :=
  ⟨rfl, ⟨rfl, rfl, rfl⟩, rfl, nofun, nofun⟩

/-- Two states with one input and different registers, results and tables. -/
def elsewhere (i : Instr) : State :=
  { running i 1 1 1 [7] with src := [(0, 7), (9, 9)], dst := [(0, 3)], lut := [(5, 5)], imgDim := 0 }

theorem witness_same_input :
    CompletingUndisturbed (.histeq 0) (running (.histeq 0) 1 1 1 [7]) ∧
    CompletingUndisturbed (.histeq 0) (elsewhere (.histeq 0)) ∧
    (running (.histeq 0) 1 1 1 [7]).latch = (elsewhere (.histeq 0)).latch ∧
    validate (running (.histeq 0) 1 1 1 [7]).cap (running (.histeq 0) 1 1 1 [7]).latch = none ∧
    ∀ a, a < (running (.histeq 0) 1 1 1 [7]).inputSamples →
      (running (.histeq 0) 1 1 1 [7]).srcAt a = (elsewhere (.histeq 0)).srcAt a :=
  ⟨completing_running _ _ _ _ _, ⟨⟨rfl, rfl, rfl⟩, rfl⟩, rfl, by decide, fun a ha => by
    have h0 : a = 0 := Nat.lt_one_iff.mp ha
    subst h0
    rfl⟩

/-- HISTEQ of a white pixel is that pixel, so the same state is a second pass over the first's output. -/
theorem witness_second_pass :
    ∃ t, CompletingUndisturbed (.histeq 0) (running (.histeq 0) 1 1 1 [255]) ∧
      (running (.histeq 0) 1 1 1 [255]).latch.c = 1 ∧
      exec (.histeq 0) (running (.histeq 0) 1 1 1 [255]) = .next t ∧
      ∀ a, a < (running (.histeq 0) 1 1 1 [255]).inputSamples →
        (running (.histeq 0) 1 1 1 [255]).srcAt a = t.dstAt a := by
  have h : (completeHisteq (running (.histeq 0) 1 1 1 [255])).dstAt 0 = 255 := by decide +kernel
  refine ⟨_, completing_running _ _ _ _ _, rfl,
    exec_of_completing (completing_running _ _ _ _ _).completing, fun a ha => ?_⟩
  have h0 : a = 0 := Nat.lt_one_iff.mp ha
  subst h0
  exact h.symm
/-- GRAY2COLOR of [7] is [7, 7, 7], the input of the TOGRAY that undoes it. -/
theorem witness_back_to_gray :
    ∃ t, CompletingUndisturbed (.gray2color 0) (running (.gray2color 0) 1 1 1 [7]) ∧
      exec (.gray2color 0) (running (.gray2color 0) 1 1 1 [7]) = .next t ∧
      CompletingUndisturbed (.togray 0) (running (.togray 0) 1 1 3 [7, 7, 7]) ∧
      ∀ a, a < 3 * 1 → (running (.togray 0) 1 1 3 [7, 7, 7]).srcAt a = t.dstAt a := by
  have h : ∀ a < 3, (running (.togray 0) 1 1 3 [7, 7, 7]).srcAt a
      = (completeGray2color (running (.gray2color 0) 1 1 1 [7])).dstAt a := by decide
  exact ⟨_, completing_running _ _ _ _ _,
    exec_of_completing (completing_running _ _ _ _ _).completing, completing_running _ _ _ _ _, h⟩

/-! ### Witnesses: the whole machine -/

theorem inv_running : (running (.sobel 0) 1 1 1 [7]).Inv := by
  refine ⟨⟨rfl, by decide, rfl, rfl, rfl, rfl⟩, ⟨?_, ?_, ?_, ?_, ?_, ?_⟩,
    ⟨fun h => ?_, fun _ => rfl, fun _ => ?_, fun h => ?_⟩⟩
  · decide
  · decide
  · decide
  · decide
  · decide
  · decide
  · exact absurd h (by decide)
  · decide
  · cases h

theorem witness_invariant_step : (running (.sobel 0) 1 1 1 [7]).Inv ∧
    landed (step (running (.sobel 0) 1 1 1 [7])) (fun _ => true) = true := ⟨inv_running, by decide⟩
/-- STATE moves in each of the three tabulated ways. -/
theorem witness_state_moves :
    landed (step (facing (.access (.writeReg 0 0x0000000A)) (ready 1 1 1 [7])))
      (fun t => t.busy) = true ∧
    landed (step (facing (.access (.writeReg 0 0x00000009)) (ready 1 1 1 [7]))) (fun t =>
      t.phase == stateError) = true ∧
    landed (step (running (.sobel 0) 1 1 1 [7])) (fun t => t.phase == stateDone) = true ∧
    landed (step (facing .reset (running (.sobel 0) 1 1 1 [7])))
      (fun t => t.phase == stateIdle) = true := by
  decide +kernel
/-- SRC changes by a host write, and stays under a step that is none. -/
theorem witness_source_moves :
    landed (step (facing (.access (.writeSrc 0 9)) (ready 1 1 1 [7])))
      (fun t => t.srcAt 0 == 9) = true ∧
    landed (step (running (.sobel 0) 1 1 1 [7]))
      (fun t => t.srcAt 0 == 7) = true := by decide +kernel
/-- A step that is neither a completion nor a reset, with LUT_VALID set. -/
theorem witness_results_stay :
    (∀ rest, { ready 1 1 1 [7] with outFmt := 0x101 }.schedule ≠ .reset :: rest) ∧
    lutValidField { ready 1 1 1 [7] with outFmt := 0x101 }.outFmt = true ∧
    landed (step { ready 1 1 1 [7] with outFmt := 0x101 }) (fun t => t.phase == stateIdle) = true :=
  ⟨fun rest h => (by cases h), by decide, by decide⟩
/-- Not BUSY, the engine's move named by an event, and with nothing scheduled. -/
theorem witness_engine_at_rest :
    (facing .engine (ready 1 1 1 [7])).phase ≠ stateBusy ∧
    (facing .engine (ready 1 1 1 [7])).schedule = .engine :: [] ∧
    (ready 1 1 1 [7]).phase ≠ stateBusy ∧ (ready 1 1 1 [7]).schedule = [] := by decide
theorem witness_running_ends :
    (facing (.wait 2) (running (.sobel 0) 1 1 1 [7])).Inv ∧
    (facing (.wait 2) (running (.sobel 0) 1 1 1 [7])).busy = true ∧
    ∀ e ∈ (facing (.wait 2) (running (.sobel 0) 1 1 1 [7])).schedule, e.wholeWord = true :=
  ⟨inv_of_same inv_running rfl rfl (by decide) rfl rfl rfl rfl rfl rfl rfl, by decide, by decide⟩

/-! ### Witnesses: the host -/

theorem witness_register_writes :
    (facing (.access (.writeReg 0x08 5)) State.reset).schedule = .access (.writeReg 0x08 5) :: [] ∧
    (facing (.access (.writeReg 0x0C 5)) State.reset).schedule = .access (.writeReg 0x0C 5) :: [] ∧
    (facing (.access (.writeReg 0x04 5)) State.reset).schedule = .access (.writeReg 0x04 5) :: [] ∧
    (facing (.access (.writeReg 0x10 5)) State.reset).schedule = .access (.writeReg 0x10 5) :: [] ∧
    0x10 % 4 = 0 := by decide
theorem witness_register_reads :
    (facing (.access (.readReg 0x10)) State.reset).schedule = .access (.readReg 0x10) :: [] ∧
    (facing (.access (.readReg 0x14)) State.reset).schedule = .access (.readReg 0x14) :: [] ∧
    0x14 % 4 = 0 := by decide
theorem witness_misaligned :
    2 % 4 ≠ 0 ∧ (facing (.access (.writeReg 2 5)) State.reset).schedule
      = .access (.writeReg 2 5) :: [] := by decide
theorem witness_sample_write_inside :
    (facing (.access (.writeSrc 3 9)) { State.reset with cap := 4 }).schedule
      = .access (.writeSrc 3 9) :: [] ∧ 3 < { State.reset with cap := 4 }.cap := by decide
theorem witness_sample_write_outside :
    (facing (.access (.writeSrc 4 9)) { State.reset with cap := 4 }).schedule
      = .access (.writeSrc 4 9) :: [] ∧ { State.reset with cap := 4 }.cap ≤ 4 := by decide
theorem witness_sample_write_ignored :
    (facing (.access (.writeDst 0 9)) State.reset).schedule = .access (.writeDst 0 9) :: [] ∧
    (facing (.access (.writeLut 0 9)) State.reset).schedule
      = .access (.writeLut 0 9) :: [] := by decide
theorem witness_sample_reads :
    (facing (.access (.readSrc 3)) State.reset).schedule = .access (.readSrc 3) :: [] ∧
    (facing (.access (.readDst 3)) State.reset).schedule = .access (.readDst 3) :: [] ∧
    (facing (.access (.readLut 255)) State.reset).schedule
      = .access (.readLut 255) :: [] := by decide
theorem witness_wait :
    (facing (.wait 0) State.reset).busy = false ∧
    (facing (.wait 1) (running (.sobel 0) 1 1 1 [7])).busy = true ∧
    (facing (.wait 1) (running (.sobel 0) 1 1 1 [7])).schedule = .wait (0 + 1) :: [] := by decide

/-- APPLY on a one-pixel buffer, from a state in which a command still runs. -/
theorem witness_apply :
    { running (.sobel 0) 1 1 1 [7] with
      schedule := applySchedule ⟨1, 1, 1, [7]⟩ 0x0010 0 1 0 }.Inv ∧
    { running (.sobel 0) 1 1 1 [7] with
      schedule := applySchedule ⟨1, 1, 1, [7]⟩ 0x0010 0 1 0 }.schedule
        = applySchedule ⟨1, 1, 1, [7]⟩ 0x0010 0 1 0 ∧
    ([7] : List Byte).length = (1 : Half).toNat * (1 : Half).toNat * (1 : BitVec 2).toNat ∧
    validate State.reset.cap { id := 0x0010, param := 0, w := 1, h := 1, c := 1 } = none :=
  ⟨inv_of_same inv_running rfl rfl (by decide) rfl rfl rfl rfl rfl rfl rfl, rfl, by decide, by decide⟩

/-- A finished TOGRAY of one pixel, about to be chained. -/
def finished : State :=
  { running (.togray 0) 1 1 1 [7] with status := 2, outFmt := 1, dst := [(0, 7)], turn := .host }

theorem witness_chain :
    { finished with schedule := chainSchedule finished }.phase = stateDone ∧
    { finished with schedule := chainSchedule finished }.schedule
      = chainSchedule { finished with schedule := chainSchedule finished } ∧
    finished.width * finished.height * (outCField finished.outFmt).toNat ≤ finished.cap := by decide

/-! ### Witnesses: arithmetic -/

theorem witness_division : 0 < 1 ∧ 1 ≤ 1 := by decide
theorem witness_address : 2 < 3 ∧ 1 < 4 ∧ 1 < 3 ∧ 4 ≤ 65535 ∧ 3 ≤ 65535 ∧ 3 ≤ 3 := by decide
theorem witness_blur_range :
    (running (.gblur 21) 2 1 1 [0, 255]).kernelSize ∈ [3, 5, 7, 9, 11, 13, 15, 17, 19, 21] ∧
    ∀ y x, (running (.gblur 21) 2 1 1 [0, 255]).hasPixel y x →
      0 ≤ ((running (.gblur 21) 2 1 1 [0, 255]).srcAt (idx 2 1 y x 0)).toNat ∧
      ((running (.gblur 21) 2 1 1 [0, 255]).srcAt (idx 2 1 y x 0)).toNat ≤ 255 :=
  ⟨by decide, fun y x _ => ⟨Nat.zero_le _, by
    have := ((running (.gblur 21) 2 1 1 [0, 255]).srcAt (idx 2 1 y x 0)).isLt
    omega⟩⟩
/-- [0, 255] and its left-right mirror. -/
theorem witness_mirror_columns :
    (running (.gblur 3) 2 1 1 [255, 0]).latch = (running (.gblur 3) 2 1 1 [0, 255]).latch ∧
    (running (.gblur 3) 2 1 1 [0, 255]).kernelSize ∈ [3, 5, 7, 9, 11, 13, 15, 17, 19, 21] ∧
    ∀ y < 1, ∀ x < 2, (running (.gblur 3) 2 1 1 [255, 0]).srcAt (idx 2 1 y x 0)
      = (running (.gblur 3) 2 1 1 [0, 255]).srcAt (idx 2 1 y (2 - 1 - x) 0) := by decide
/-- A column and its top-bottom mirror. -/
theorem witness_mirror_rows :
    (running (.gblur 3) 1 2 1 [255, 0]).latch = (running (.gblur 3) 1 2 1 [0, 255]).latch ∧
    (running (.gblur 3) 1 2 1 [0, 255]).kernelSize ∈ [3, 5, 7, 9, 11, 13, 15, 17, 19, 21] ∧
    ∀ y < 2, ∀ x < 1, (running (.gblur 3) 1 2 1 [255, 0]).srcAt (idx 1 1 y x 0)
      = (running (.gblur 3) 1 2 1 [0, 255]).srcAt (idx 1 1 (2 - 1 - y) x 0) := by decide
/-- A flat image, for the one-pixel clauses of GradientsAreTheSobelKernels, and S = 0 = 0·0. -/
theorem witness_thin : (running (.sobel 0) 1 1 1 [7]).width = 1 ∧
    (running (.sobel 0) 1 1 1 [7]).height = 1 ∧
    (running (.sobel 0) 1 1 1 [7]).gradSquared 0 0 = 0 * 0 := by decide
theorem witness_gamma_order : 1 ≤ 2 ∧ 2 < 256 ∧ 1 ≤ 1 ∧ 1 ≤ 256 ∧ 256 ≤ 257 := by decide

end Sys2Proof.Machine
end

section
/-! The result of a command as a function of the latch and of its input image, and that it is the same
in two states that share these (00_scope.md R8). -/

namespace Sys2Proof.Machine

/-! ### What a completion leaves, for every command -/

/-- The output sample at (y, x, c) of an undisturbed command, from the latch and SRC alone; a reserved
command, which never completes (R66), has none and is given 0. -/
def outSample (i : Instr) (s : State) (y x c : Nat) : Byte :=
  match i with
  | .histeq _ => histeqEntry (s.width * s.height) (s.cdf (s.gray y x).toNat)
  | .gamma _ => gammaEntry (s.gray y x).toNat s.gammaParam
  | .gblur _ => s.blurred y x c
  | .sobel _ =>
    normalise (listMin s.magnitudes) (listMax s.magnitudes - listMin s.magnitudes) (s.magnitude y x)
  | .togray _ => s.gray y x
  | .gray2color _ => s.srcAt (idx s.width 1 y x 0)
  | .cstretch _ | .logt _ | .negative _ | .sharpen _ | .cartoon _ | .watercolor _ => 0

/-- What an undisturbed `deliver` leaves in DST. -/
theorem deliver_dstAt_of_undisturbed (cOut : BitVec 2) (f : Nat → Nat → Nat → Byte) {s : State}
    (h : s.srcHazard = false) {y x c : Nat} (hp : s.hasPixel y x) (hc : c < cOut.toNat) :
    (deliver cOut f s).dstAt (idx s.width cOut.toNat y x c) = f y x c :=
  (deliver_dstAt cOut f hp hc).trans (settled_of_undisturbed h _ _ _)

/-- An undisturbed completion stores `outSample` at every address of the output. -/
theorem dstAt_completionOf {i : Instr} {s : State} (hi : i.implemented = true)
    (h : s.srcHazard = false) {y x c : Nat} (hp : s.hasPixel y x) (hc : c < outChans i s) :
    (completionOf i s).dstAt (idx s.width (outChans i s) y x c) = outSample i s y x c := by
  cases i with
  | histeq => exact dstAt_completeHisteq h hp hc
  | gamma => exact dstAt_completeGamma h hp hc
  | gblur => exact deliver_dstAt_of_undisturbed s.latch.c s.blurred h hp hc
  | sobel => exact deliver_dstAt_of_undisturbed s.latch.c _ h hp hc
  | togray => exact deliver_dstAt_of_undisturbed 1 _ h hp hc
  | gray2color => exact deliver_dstAt_of_undisturbed 3 _ h hp hc
  | _ => cases hi

/-- A completion ends in DONE and announces the command's channel count. -/
theorem completionOf_delivered {i : Instr} (s : State) (hi : i.implemented = true) :
    Delivered (outChans i s) (completionOf i s) := by
  cases i with
  | togray => exact deliver_delivered 1 _ s
  | gray2color => exact deliver_delivered 3 _ s
  | gblur => exact deliver_delivered s.latch.c _ s
  | sobel => exact deliver_delivered s.latch.c _ s
  | histeq => exact deliver_delivered s.latch.c _ (publishTable _ s)
  | gamma => exact deliver_delivered s.latch.c _ (publishTable _ s)
  | _ => cases hi

theorem completionOf_lutValid {i : Instr} (s : State)
    (ht : (∃ p, i = .histeq p) ∨ ∃ g, i = .gamma g) :
    lutValidField (completionOf i s).outFmt = true := by
  rcases ht with ⟨_, rfl⟩ | ⟨_, rfl⟩
  · exact (publish_deliver_outFmt _ _ _ s).1
  · exact (publish_deliver_outFmt _ _ _ s).1

/-! ### The same input gives the same result -/

namespace SameInput

variable {s t : State}

theorem hasPixel (h : SameInput s t) {y x : Nat} (hp : s.hasPixel y x) : t.hasPixel y x :=
  ⟨h.height ▸ hp.1, h.width ▸ hp.2⟩

theorem outChans (h : SameInput s t) (i : Instr) :
    Machine.outChans i t = Machine.outChans i s := by
  cases i with
  | togray => rfl
  | gray2color => rfl
  | _ => exact h.chans

theorem gammaParam (h : SameInput s t) : t.gammaParam = s.gammaParam := by
  rw [State.gammaParam, State.gammaParam, h.latch]

theorem magnitudes (h : SameInput s t) (hc : s.latch.c = 1 ∨ s.latch.c = 3) :
    t.magnitudes = s.magnitudes := by
  unfold State.magnitudes
  rw [h.height, h.width]
  exact List.map_congr_left fun _ hm => h.magnitude hc (mem_pixels.mp hm)

/-- Every command but GBLUR reads the image through the gray plane, GRAY2COLOR because its input has one
channel (R164). -/
theorem outSample (h : SameInput s t) {i : Instr} (hV : Validated s.cap s.latch)
    (hl : s.latch.word = encode i) {y x c : Nat} (hp : s.hasPixel y x)
    (hc : c < Machine.outChans i s) :
    Machine.outSample i t y x c = Machine.outSample i s y x c := by
  have hg : t.gray y x = s.gray y x := h.gray hV.chans hp
  cases i with
  | histeq => simp only [Machine.outSample, h.width, h.height, hg, h.cdf hV.chans]
  | gamma => simp only [Machine.outSample, hg, h.gammaParam]
  | gblur => exact h.blurred hp hc
  | sobel => simp only [Machine.outSample, h.magnitudes hV.chans, h.magnitude hV.chans hp]
  | togray => exact hg
  | gray2color =>
    have h1 : s.latch.c = 1 := hV.gray2color (fields_of_latched hl).1
    rwa [gray_of_one h1, gray_of_one (h.latch ▸ h1)] at hg
  | _ => rfl

theorem outCField (h : SameInput s t) {i : Instr} (hi : i.implemented = true) :
    Machine.outCField (completionOf i t).outFmt = Machine.outCField (completionOf i s).outFmt :=
  BitVec.eq_of_toNat_eq <| by
    rw [(completionOf_delivered t hi).announced, (completionOf_delivered s hi).announced,
      h.outChans]

theorem dstAt (h : SameInput s t) {i : Instr} (hV : Validated s.cap s.latch)
    (hl : s.latch.word = encode i) (hs : s.srcHazard = false) (ht : t.srcHazard = false)
    {y x c : Nat} (hp : s.hasPixel y x) (hc : c < Machine.outChans i s) :
    (completionOf i t).dstAt (idx s.width (Machine.outChans i s) y x c)
      = (completionOf i s).dstAt (idx s.width (Machine.outChans i s) y x c) := by
  have hi := implemented_of_validated hV hl
  rw [dstAt_completionOf hi hs hp hc, ← h.outSample hV hl hp hc, ← h.width, ← h.outChans]
  exact dstAt_completionOf hi ht (h.hasPixel hp) (h.outChans i ▸ hc)

theorem lutAt (h : SameInput s t) {i : Instr} (hV : Validated s.cap s.latch)
    (hs : s.srcHazard = false) (ht : t.srcHazard = false)
    (hi : (∃ p, i = .histeq p) ∨ ∃ g, i = .gamma g) {j : Nat} (hj : j < 256) :
    (completionOf i t).lutAt j = (completionOf i s).lutAt j := by
  rcases hi with ⟨_, rfl⟩ | ⟨_, rfl⟩
  · simp only [completionOf, lutAt_completeHisteq ht hj, lutAt_completeHisteq hs hj, h.width,
      h.height, h.cdf hV.chans]
  · simp only [completionOf, lutAt_completeGamma _ hj, h.gammaParam]

end SameInput

/-- Settles O21: each completion's OUT_C, samples and table are functions of the latch and the input
image. -/
theorem resultDependsOnLatchAndInputOnly : Obligations.ResultDependsOnLatchAndInputOnly := by
  intro i s₁ s₂ h₁ h₂ hlatch hnone hsrc
  have hV := validated_of_none hnone
  have hl := h₁.completing.latched
  have hin : SameInput s₁ s₂ := ⟨hlatch.symm, fun a ha => (hsrc a ha).symm⟩
  refine ⟨_, _, exec_of_completing h₁.completing, exec_of_completing h₂.completing, ?_, ?_, ?_⟩
  · exact (hin.outCField (implemented_of_validated hV hl)).symm
  · intro y x c hp hc
    exact (hin.dstAt hV hl h₁.undisturbed h₂.undisturbed hp hc).symm
  · intro ht
    exact ⟨completionOf_lutValid s₁ ht, completionOf_lutValid s₂ ht,
      fun j hj => (hin.lutAt hV h₁.undisturbed h₂.undisturbed ht hj).symm⟩

end Sys2Proof.Machine
end

section
/-! What every step keeps (10_state.md R12 to R18, 60_exceptions.md R170, R171): the invariant, SRC but
for the host's writes, and the results but for a completion. Each is one lemma for each operation of the
state, assembled over the moves of Sys2Proof/Laws/Step.lean. -/

namespace Sys2Proof.Machine

/-! ### The invariant under each operation -/

/-- The invariant does not look at the model's own fields. -/
theorem inv_of_ownFields {s : State} (h : s.Inv) (schedule : List Event) (turn : Agent)
    (replies : List Reply) (draws : Nat) :
    ({ s with schedule := schedule, turn := turn, replies := replies, draws := draws } : State).Inv :=
  inv_of_same h rfl rfl h.registers.imgFmtReserved rfl rfl rfl rfl rfl rfl rfl

/-- Nor does it look at whose move it is or at what is still to come. -/
theorem inv_of_rescheduled {s : State} (h : s.Inv) (schedule : List Event) (turn : Agent) :
    ({ s with schedule := schedule, turn := turn } : State).Inv :=
  inv_of_ownFields h schedule turn s.replies s.draws

/-- A WRS below CAP, as a record update. -/
theorem writeSrc_of_lt {s : State} {a : Nat} (v : Byte) (ha : a < s.cap) :
    writeSrc a v s = { s with
      src := s.src.write a v
      srcHazard := s.srcHazard || (s.busy && decide (a < s.inputSamples)) } := if_pos ha

/-- A WRS keeps SRC canonical and inside CAP, and disturbs nothing but a running command (R196). -/
theorem inv_writeSrc {s : State} (h : s.Inv) {a : Nat} (v : Byte) (ha : a < s.cap) :
    (writeSrc a v s).Inv := by
  obtain ⟨⟨hsrc, hsrcIn, hdst, hdstIn, hlut, hlutIn⟩, hregisters, hidle, hlatch, hvalid, hhazard⟩ := h
  have hbusy : (s.srcHazard || (s.busy && decide (a < s.inputSamples))) = true → s.busy = true := by
    rw [Bool.or_eq_true, Bool.and_eq_true]
    rintro (hz | ⟨hb, _⟩)
    · exact hhazard hz
    · exact hb
  rw [writeSrc_of_lt v ha]
  exact ⟨⟨Memory.wf_write a v hsrc, Memory.below_write v ha hsrcIn, hdst, hdstIn, hlut, hlutIn⟩,
    ⟨hregisters.statusReserved, hregisters.errExactlyInError, hregisters.imgFmtReserved,
      hregisters.outFmtReserved, hregisters.outCNotTwo, hregisters.outCExactlyInDone⟩,
    ⟨hidle, hlatch, hvalid, hbusy⟩⟩

/-- A state with zero registers, empty stores and no disturbance is legal, whatever its latch holds
(R25). -/
theorem inv_of_cleared {s : State} (hcmd : s.cmd = 0) (hstatus : s.status = 0)
    (himgFmt : s.imgFmt = 0) (houtFmt : s.outFmt = 0) (hsrc : s.src = []) (hdst : s.dst = [])
    (hlut : s.lut = []) (hhazard : s.srcHazard = false) : s.Inv := by
  have hphase : s.phase = stateIdle := by rw [State.phase, hstatus]; decide
  have hbusy : s.busy = false := by rw [busy_eq_false_iff, hphase]; decide
  refine ⟨⟨?_, ?_, ?_, ?_, ?_, ?_⟩, ⟨?_, ?_, ?_, ?_, ?_, ?_⟩, ⟨fun _ => hcmd, ?_, ?_, ?_⟩⟩
  · rw [hsrc]; rfl
  · rw [hsrc]; rfl
  · rw [hdst]; rfl
  · rw [hdst]; rfl
  · rw [hlut]; rfl
  · rw [hlut]; rfl
  · rw [hstatus]; decide
  · rw [hstatus, hphase]; decide
  · rw [himgFmt]; decide
  · rw [houtFmt]; decide
  · rw [houtFmt]; decide
  · rw [houtFmt, hphase]; decide
  · exact fun hne => absurd hphase hne
  · rw [hbusy]; exact fun hb => by cases hb
  · rw [hhazard]; exact fun hz => by cases hz

theorem inv_assertReset (s : State) : (assertReset s).Inv :=
  inv_of_cleared rfl rfl rfl rfl rfl rfl rfl rfl

/-- Every move keeps the invariant. -/
theorem inv_of_move {s t : State} (h : s.Inv) (m : Move s t) : t.Inv := by
  cases m with
  | quiet schedule turn => exact inv_of_rescheduled h schedule turn
  | replied schedule r => exact inv_of_ownFields h schedule .host (r :: s.replies) s.draws
  | repliedAnyWord schedule => exact inv_of_ownFields h schedule .host _ (s.draws + 1)
  | repliedAnySample schedule => exact inv_of_ownFields h schedule .host _ (s.draws + 1)
  | wroteImgDim schedule v =>
    exact inv_of_same h rfl rfl h.registers.imgFmtReserved rfl rfl rfl rfl rfl rfl rfl
  | wroteImgFmt schedule v =>
    exact inv_of_same h rfl rfl (imgFmtReserved_stored v) rfl rfl rfl rfl rfl rfl rfl
  | wroteSrc rest a v _ inside => exact inv_writeSrc (inv_of_rescheduled h rest .host) v inside
  | launched rest w _ notBusy => exact inv_launch w (inv_of_rescheduled h rest .host) notBusy
  | completed schedule i busy latched =>
    exact inv_completionOf (inv_of_rescheduled h schedule .engine) busy latched
  | wasReset rest _ => exact inv_assertReset _

/-- Settles O23: a step is one of the moves, and each move keeps the invariant. -/
theorem everyStepKeepsTheInvariant : Obligations.EveryStepKeepsTheInvariant :=
  fun _ _ h hstep => inv_of_move h (move_of_step hstep)

/-- Settles O22: the reset state is cleared. -/
theorem resetStateMeetsTheInvariant : Obligations.ResetStateMeetsTheInvariant :=
  inv_of_cleared rfl rfl rfl rfl rfl rfl rfl rfl

/-- Settles O4: every register is zero, and an empty store reads as the draw of reset number 0. -/
theorem resetStateHasZeroRegisters : Obligations.ResetStateHasZeroRegisters :=
  ⟨rfl, rfl, rfl, rfl, rfl, rfl, fun _ => rfl, fun _ => rfl, fun _ => rfl, rfl, rfl, rfl, rfl, rfl⟩

/-! ### The launch -/

/-- Settles O7: the launch is `acceptLaunch` of the latched command. -/
theorem acceptedLaunchLatchesAndRuns : Obligations.AcceptedLaunchLatchesAndRuns := by
  intro i s hturn hbusy hvalid
  have hexec : exec i s = .next (acceptLaunch (latchCommand (encode i) s)) := by
    rw [exec_of_host i hturn, commandWrite_of_not_busy _ hbusy,
      launch_accepted (by rw [latchOf_encode, hvalid])]
  refine ⟨_, hexec, rfl, latchOf_encode i s, ?_, ?_, ?_, rfl, acceptLaunch_frame _ s⟩
  · rw [State.phase, acceptLaunch_status, stateField_setStateField]
  · rw [acceptLaunch_status, errField_setStateField, errField_setErrField]
  · rw [acceptLaunch_outFmt, latchCommand_outFmt, outCField_setOutCField]

/-! ### SRC -/

/-- Every sample of SRC reads the same where the store and the number of the last reset do. -/
theorem srcAt_congr {s t : State} (hsrc : t.src = s.src) (hepoch : t.epoch = s.epoch) (a : Nat) :
    t.srcAt a = s.srcAt a := by rw [State.srcAt, State.srcAt, hsrc, hepoch]

/-- What a WRS below CAP leaves at each index. -/
theorem srcAt_writeSrc {s : State} {a : Nat} (v : Byte) (ha : a < s.cap) (b : Nat) :
    (writeSrc a v s).srcAt b = if b = a then v else s.srcAt b := by
  rw [writeSrc_of_lt v ha]
  exact writeSrc_srcAt s.src s.epoch a b v

/-- No completion writes SRC (R16) or changes CAP. -/
theorem completionOf_src (i : Instr) (s : State) :
    (completionOf i s).src = s.src ∧ (completionOf i s).epoch = s.epoch ∧
      (completionOf i s).cap = s.cap := by
  obtain ⟨c, f, h⟩ | ⟨c, f, table, h⟩ | ⟨_, h⟩ := completionOf_cases i s <;> rw [h] <;>
    exact ⟨rfl, rfl, rfl⟩

/-- Where a move can change SRC: at the index the host writes, or by reset. -/
theorem srcAt_of_move {s t : State} (m : Move s t) (b : Nat) :
    t.srcAt b = s.srcAt b ∨
    (∃ v rest, s.schedule = .access (.writeSrc b v) :: rest ∧ b < s.cap ∧ t.srcAt b = v) ∨
    ∃ rest, s.schedule = .reset :: rest := by
  cases m with
  | wroteSrc rest a v sched inside =>
    have hread := srcAt_writeSrc (s := { s with schedule := rest, turn := .host }) v inside b
    by_cases hb : b = a
    · subst hb
      exact .inr (.inl ⟨v, rest, sched, inside, hread.trans (if_pos rfl)⟩)
    · exact .inl (hread.trans (if_neg hb))
  | launched rest w _ _ => exact .inl ((launch_frame w _).samples.src b)
  | completed schedule i _ _ =>
    obtain ⟨hsrc, hepoch, _⟩ := completionOf_src i { s with schedule := schedule, turn := .engine }
    exact .inl (srcAt_congr (s := s) hsrc hepoch b)
  | wasReset rest sched => exact .inr (.inr ⟨rest, sched⟩)
  | _ => exact .inl rfl

/-- Settles O25: no command writes SRC, and of the moves only a WRS and reset do. -/
theorem sourceChangesOnlyByHostWrites : Obligations.SourceChangesOnlyByHostWrites := by
  refine ⟨fun i s t h a => ?_, fun s t a h => srcAt_of_move (move_of_step h) a⟩
  obtain ⟨hsrc, hepoch⟩ := exec_src h
  exact srcAt_congr hsrc hepoch a

/-! ### DST, LUT and LUT_VALID -/

/-- DST, LUT and LUT_VALID are as before (R15, R17, R18). -/
structure SameResults (s t : State) : Prop where
  dst : ∀ a, t.dstAt a = s.dstAt a
  lut : ∀ i, t.lutAt i = s.lutAt i
  lutValid : lutValidField t.outFmt = lutValidField s.outFmt

theorem sameResults_of_eq {s t : State} (hdst : t.dst = s.dst) (hlut : t.lut = s.lut)
    (hepoch : t.epoch = s.epoch) (houtFmt : t.outFmt = s.outFmt) : SameResults s t where
  dst := fun a => by rw [State.dstAt, State.dstAt, hdst, hepoch]
  lut := fun i => by rw [State.lutAt, State.lutAt, hlut, hepoch]
  lutValid := by rw [houtFmt]

/-- A launch withdraws OUT_C, but not the table. -/
theorem sameResults_of_launchFrame {s t : State} (h : LaunchFrame s t) : SameResults s t :=
  ⟨h.samples.dst, h.samples.lut, h.outFmtOther 8 (by decide)⟩

/-- A completion step ends in DONE and does not withdraw the table, or it is no command's and changes
nothing. -/
theorem completionOf_results (i : Instr) (s : State) :
    ((completionOf i s).phase = stateDone ∧
      (lutValidField s.outFmt = true → lutValidField (completionOf i s).outFmt = true)) ∨
    completionOf i s = s := by
  obtain ⟨c, f, h⟩ | ⟨c, f, table, h⟩ | ⟨_, h⟩ := completionOf_cases i s
  · rw [h]
    exact .inl ⟨(deliver_delivered c f s).done, by simp⟩
  · rw [h]
    exact .inl ⟨(deliver_delivered c f _).done, fun _ => (publish_deliver_outFmt c f table s).1⟩
  · exact .inr h

/-- Where a move can change the results: not at all, in a completion, or by reset. -/
theorem results_of_move {s t : State} (m : Move s t) :
    SameResults s t ∨
    ((s.phase = stateBusy ∧ t.phase = stateDone) ∧
      (lutValidField s.outFmt = true → lutValidField t.outFmt = true)) ∨
    ∃ rest, s.schedule = .reset :: rest := by
  cases m with
  | wroteSrc rest a v _ inside =>
    rw [writeSrc_of_lt (s := { s with schedule := rest, turn := .host }) v inside]
    exact .inl (sameResults_of_eq rfl rfl rfl rfl)
  | launched rest w _ _ =>
    obtain ⟨hdst, hlut, hvalid⟩ := sameResults_of_launchFrame
      (launch_frame w { s with schedule := rest, turn := .host })
    exact .inl ⟨hdst, hlut, hvalid⟩
  | completed schedule i busy _ =>
    obtain ⟨hdone, hvalid⟩ | h :=
      completionOf_results i { s with schedule := schedule, turn := .engine }
    · exact .inr (.inl ⟨⟨(busy_eq_true_iff s).mp busy, hdone⟩, hvalid⟩)
    · rw [h]
      exact .inl (sameResults_of_eq rfl rfl rfl rfl)
  | wasReset rest sched => exact .inr (.inr ⟨rest, sched⟩)
  | _ => exact .inl (sameResults_of_eq rfl rfl rfl rfl)

/-- CAP is a parameter (R5): no move changes it. -/
theorem cap_of_move {s t : State} (m : Move s t) : t.cap = s.cap := by
  cases m with
  | wroteSrc rest a v _ inside =>
    rw [writeSrc_of_lt (s := { s with schedule := rest, turn := .host }) v inside]
  | launched rest w _ _ => exact (launch_frame w _).outside.cap
  | completed schedule i _ _ => exact (completionOf_src i _).2.2
  | _ => rfl

/-- Settles O26: a move that is no reset keeps the results, or it is a completion, which keeps a valid
table valid. -/
theorem resultsChangeOnlyByCompletion : Obligations.ResultsChangeOnlyByCompletion := by
  intro s t hstep
  have m := move_of_step hstep
  refine ⟨cap_of_move m, fun hreset hvalid => ?_, fun hreset hcompletion => ?_⟩
  · obtain same | ⟨_, hkept⟩ | ⟨rest, sched⟩ := results_of_move m
    · exact same.lutValid.trans hvalid
    · exact hkept hvalid
    · exact absurd sched (hreset rest)
  · obtain same | ⟨hdone, _⟩ | ⟨rest, sched⟩ := results_of_move m
    · exact ⟨same.dst, same.lut, same.lutValid⟩
    · exact absurd hdone hcompletion
    · exact absurd sched (hreset rest)

end Sys2Proof.Machine
end

section
/-! What each access of the host does as a step (10_state.md R11 to R18, R26; 20_memory.md R43 to R46). -/

namespace Sys2Proof.Machine

/-! ### The register window -/

theorem step_of_writeReg {s : State} {rest : List Event} {offset : Nat} {v : Word}
    (h : s.schedule = .access (.writeReg offset v) :: rest) (ha : offset % 4 = 0) :
    step s = writeReg offset v { s with schedule := rest, turn := .host } :=
  (step_of_access h).trans (if_pos (beq_iff_eq.mpr ha))

theorem step_of_readReg {s : State} {rest : List Event} {offset : Nat}
    (h : s.schedule = .access (.readReg offset) :: rest) (ha : offset % 4 = 0) :
    step s = .next (readReg offset { s with schedule := rest, turn := .host }) :=
  (step_of_access h).trans (if_pos (beq_iff_eq.mpr ha))

theorem writeReg_reserved {offset : Nat} (h : 0x14 ≤ offset) (v : Word) (s : State) :
    writeReg offset v s = .next s := by
  unfold writeReg
  rw [regAt_reserved h]

theorem readReg_reserved {offset : Nat} (h : 0x14 ≤ offset) (s : State) :
    readReg offset s = replyAnyWord s := by
  unfold readReg
  rw [regAt_reserved h]

/-- A write of STATUS, of OUT_FMT or of a reserved offset does nothing (R12, R15, R26). -/
theorem writeReg_ignored {offset : Nat} (h : offset = 0x04 ∨ (0x10 ≤ offset ∧ offset % 4 = 0))
    (v : Word) (s : State) : writeReg offset v s = .next s := by
  obtain rfl | rfl | hreserved : offset = 0x04 ∨ offset = 0x10 ∨ 0x14 ≤ offset := by omega
  · rfl
  · rfl
  · exact writeReg_reserved hreserved v s

/-- Settles O28, offset by offset. -/
theorem registerWritesStoreWritableFields : Obligations.RegisterWritesStoreWritableFields := by
  refine fun s rest v => ⟨step_of_writeImgDim, fun h => ?_, fun offset hoffset h => ?_⟩
  · rw [step_of_writeImgFmt h, imgFmtStored_eq]
  · rw [step_of_writeReg h (by omega), writeReg_ignored hoffset]

/-- Settles O29, offset by offset. -/
theorem registerReadsReturnTheRegister : Obligations.RegisterReadsReturnTheRegister := by
  refine fun s rest offset value h => ⟨?_, fun hreserved haligned => ?_⟩
  · rintro (⟨rfl, rfl⟩ | ⟨rfl, rfl⟩ | ⟨rfl, rfl⟩ | ⟨rfl, rfl⟩ | ⟨rfl, rfl⟩) <;>
      exact step_of_readReg h rfl
  · rw [step_of_readReg h haligned, readReg_reserved hreserved]
    rfl

/-! ### The sample stores -/

/-- A WRS at or above CAP does nothing (R43). -/
theorem writeSrc_of_le {s : State} {a : Nat} (v : Byte) (ha : s.cap ≤ a) : writeSrc a v s = s :=
  if_neg (Nat.not_lt.mpr ha)

/-- Settles O31: a WRS below CAP is `Memory.write`; the other writes do nothing. -/
theorem sampleWritesReachOnlySource : Obligations.SampleWritesReachOnlySource := by
  refine fun s rest a v => ⟨fun h ha => ?_, ?_⟩
  · refine ⟨_, step_of_writeSrc h ha, ?_, fun b hb => ?_, rfl, rfl⟩
    · exact (writeSrc_srcAt s.src s.epoch a a v).trans (if_pos rfl)
    · exact (writeSrc_srcAt s.src s.epoch a b v).trans (if_neg hb)
  · rintro (⟨h, ha⟩ | h | h)
    · exact (step_of_access h).trans (congrArg Host.Outcome.next
        (writeSrc_of_le (s := { s with schedule := rest, turn := .host }) v ha))
    · exact step_of_access h
    · exact step_of_access h

theorem not_busy_iff (s : State) : (!s.busy) = true ↔ s.phase ≠ stateBusy := by
  rw [Bool.not_eq_true', busy_eq_false_iff]

/-- Settles O32: each read answers the entry under the condition of its store, else a free value. -/
theorem sampleReadsReturnTheEntry : Obligations.SampleReadsReturnTheEntry := by
  refine fun s rest a => ⟨fun h => step_of_access h, fun h => ?_, fun h => ?_⟩
  · refine (step_of_access h).trans (congrArg _ (if_congr ?_ rfl rfl))
    exact and_congr_right' (not_busy_iff s)
  · refine (step_of_access h).trans (congrArg _ (if_congr ?_ rfl rfl))
    exact and_congr_right' (and_congr_left' (not_busy_iff s))

end Sys2Proof.Machine
end

section
/-! Addresses, the width of a register access and the border fold (20_memory.md R40, R42, R44, R47). -/

namespace Sys2Proof.Machine

/-! ### Addresses -/

/-- The largest geometry of the registers: 65535 · 65535 · 3 samples fit 34 address bits (R42). -/
theorem geometry_lt {w h chans : Nat} (hw : w ≤ 65535) (hh : h ≤ 65535) (hc : chans ≤ 3) :
    w * h * chans < 2 ^ 34 :=
  calc w * h * chans ≤ 65535 * 65535 * 3 := Nat.mul_le_mul (Nat.mul_le_mul hw hh) hc
    _ < 2 ^ 34 := by decide

/-- Settles O38: the address is below W·H·C, which is below 2^34, and fixes the sample's coordinates. -/
theorem sampleAddressesAreDistinctAndInside : Obligations.SampleAddressesAreDistinctAndInside := by
  intro w h chans y x c hy hx hc
  have hinside : idx w chans y x c < w * h * chans := idx_lt hy hx hc
  refine ⟨rfl, hinside, fun hw hh hchans => hinside.trans (geometry_lt hw hh hchans), ?_⟩
  exact fun y' x' c' hx' hc' heq => idx_inj hx' hx hc' hc heq

/-! ### The width of a register access -/

theorem not_aligned {offset : Nat} (h : offset % 4 ≠ 0) : ¬ aligned offset = true :=
  mt beq_iff_eq.mp h

/-- Settles O30, access by access: a narrow one is refused at once, a misaligned one by `aligned`. -/
theorem narrowRegisterAccessIsRefused : Obligations.NarrowRegisterAccessIsRefused := by
  rintro s rest offset bytes v (h | h | ⟨hoffset, h⟩ | ⟨hoffset, h⟩)
  · exact step_of_access h
  · exact step_of_access h
  · exact (step_of_access h).trans (if_neg (not_aligned hoffset))
  · exact (step_of_access h).trans (if_neg (not_aligned hoffset))

/-! ### The border fold -/

/-- The fold by its formula (R47), the period written as an integer. -/
theorem refl_eq (i : Int) (n : Nat) : refl i n = if (i % (2 * n)).toNat < n then (i % (2 * n)).toNat
    else 2 * n - 1 - (i % (2 * n)).toNat := by
  unfold refl
  push_cast
  rfl

/-- Settles O37: the five laws of the fold, one lemma each. -/
theorem borderFoldReflectsAtTheEdge : Obligations.BorderFoldReflectsAtTheEdge := by
  refine fun i n hn => ⟨refl_lt i hn, fun h0 hlt => ?_, ?_, refl_reflect i hn, refl_eq i n⟩
  · lift i to Nat using h0
    exact congrArg Nat.cast (refl_inside (Int.ofNat_lt.mp hlt))
  · simpa using refl_add_period i 1 n

end Sys2Proof.Machine
end

section
/-! The decoder's table in both directions (30_encoding.md R60 to R68), and what the launch of a
word without a filter leaves (R66, 60_exceptions.md R162, R165). -/

namespace Sys2Proof.Machine

/-! ### Encoding -/

/-- The decoder reads back every encoded command. -/
theorem decode_encode (i : Instr) : decode (encode i) = .ok i := by
  rw [encode, decode_commandWord]
  cases i <;> rfl

/-- Settles O3: the decoder's rows carry the identifiers of `Instr.id`, and a word is its two
fields. -/
theorem decodeAndEncodeAreInverse : Obligations.DecodeAndEncodeAreInverse := by
  refine ⟨decode_encode, fun w i h => ?_⟩
  obtain ⟨hid, hparam⟩ := fields_of_decode h
  exact encode_eq_of_fields hid hparam

/-- Settles O1: each word is evaluated. -/
theorem commandWordsDecodeAsTabulated : Obligations.CommandWordsDecodeAsTabulated :=
  ⟨rfl, rfl, rfl, rfl, rfl, rfl, rfl, rfl, rfl, rfl, rfl, rfl, rfl, rfl, rfl, rfl, rfl, rfl⟩

/-- The identifiers without a row in the table of R63. -/
abbrev UnassignedId (id : Half) : Prop := id = 0 ∨ (0x000B ≤ id ∧ id ≤ 0x000F) ∨ 0x0012 ≤ id

theorem id_assigned (i : Instr) : ¬ UnassignedId i.id := by
  cases i <;> simp only [Instr.id] <;> decide

/-- A word with an unassigned identifier is no command: a command's identifier is assigned. -/
theorem decode_unassigned {id : Half} (param : Half) (h : UnassignedId id) :
    decode (commandWord param id) = .error (.unassigned id) := by
  cases hd : decode (commandWord param id) with
  | ok i =>
    have hid : i.id = id := (fields_of_decode hd).1.trans (idField_commandWord param id)
    exact absurd h (hid ▸ id_assigned i)
  | error r => rw [(id_of_decode_error hd).1, idField_commandWord]

/-- Settles O2: the twelve assigned identifiers encode their commands, and no other one does. -/
theorem decodeFollowsIdentifierTable : Obligations.DecodeFollowsIdentifierTable :=
  ⟨fun p => ⟨decode_encode (.histeq p), decode_encode (.cstretch p), decode_encode (.gamma p),
    decode_encode (.logt p), decode_encode (.negative p), decode_encode (.gblur p),
    decode_encode (.sharpen p), decode_encode (.cartoon p), decode_encode (.watercolor p),
    decode_encode (.sobel p), decode_encode (.togray p), decode_encode (.gray2color p)⟩,
    fun p _ h => decode_unassigned p h⟩

/-! ### The launch of a word without a filter -/

/-- Everything a refused launch leaves (R165). -/
theorem launch_recordsRefusal {w : Word} {s : State} {e : ErrorKind}
    (h : validate s.cap (latchOf w s) = some e) :
    RecordsRefusal w (latchOf w s) e s (launch w s) := by
  rw [launch_refused h]
  exact {
    cmd := rfl
    latch := rfl
    error := by rw [State.phase, raiseError_status, stateField_setStateField]
    code := by
      rw [raiseError_status, errField_setStateField, errField_setErrField]
      cases e <;> rfl
    withdrawn := by rw [raiseError_outFmt, latchCommand_outFmt, outCField_setOutCField]
    hazard := rfl
    frame := raiseError_frame e w s }

/-- A CMD write whose identifier the block does not implement is refused by the first check
(R162). -/
theorem commandWrite_unknown {w : Word} {s : State} (hbusy : s.busy = false)
    (hid : idField w ∉ implementedIds) :
    RecordsRefusal w (latchOf w s) .unknownFilter s (commandWrite w s) := by
  rw [commandWrite_of_not_busy w hbusy]
  exact launch_recordsRefusal (validate_unknown hid)

/-- Settles O9: none of the six identifiers is implemented, and on the host's move a command is its
CMD write. -/
theorem reservedCommandsRaiseUnknownFilter : Obligations.ReservedCommandsRaiseUnknownFilter := by
  intro p s hturn hbusy i hi
  have hid : i.id ∉ implementedIds := by
    obtain rfl | rfl | rfl | rfl | rfl | rfl := hi <;> simp only [Instr.id] <;> decide
  obtain ⟨hcmd, hlatch, herror, hcode, hwithdrawn, _, hframe⟩ :=
    commandWrite_unknown (w := encode i) hbusy (by rwa [idField_encode])
  exact ⟨_, exec_of_host i hturn, hcmd, hlatch.trans (latchOf_encode i s), herror, hcode,
    hwithdrawn, hframe⟩

theorem unassigned_not_implemented {id : Half} (h : UnassignedId id) : id ∉ implementedIds := by
  simp only [implementedIds, List.mem_cons, List.not_mem_nil, or_false]
  rintro (rfl | rfl | rfl | rfl | rfl | rfl) <;> exact absurd h (by decide)

/-- Settles O10: no unassigned identifier is implemented. -/
theorem unassignedIdentifierRaisesUnknownFilter :
    Obligations.UnassignedIdentifierRaisesUnknownFilter := by
  intro s rest p id hs hbusy hid
  have hfields : idField (p ++ id) = id ∧ paramField (p ++ id) = p :=
    ⟨idField_commandWord p id, paramField_commandWord p id⟩
  obtain ⟨hcmd, hlatch, herror, hcode, hwithdrawn, _, hframe⟩ :=
    commandWrite_unknown (w := p ++ id) (s := { s with schedule := rest, turn := .host }) hbusy
      (by rw [hfields.1]; exact unassigned_not_implemented hid)
  exact ⟨_, step_of_commandWrite hs, hcmd, (congrArg Latch.id hlatch).trans hfields.1,
    (congrArg Latch.param hlatch).trans hfields.2, herror, hcode, hwithdrawn, hframe⟩

end Sys2Proof.Machine
end

section
/-! Which command a step runs, and what a WAIT does (30_encoding.md R60, R69; 60_exceptions.md R170,
R171). -/

namespace Sys2Proof.Machine

/-! ### The command of a step -/

theorem runCommandWord_of_decode {w : Word} {i : Instr} (h : decode w = .ok i) (s : State) :
    runCommandWord w s = exec i s := by
  simp only [runCommandWord, h]

/-- A CMD write runs the command the word decodes to. -/
theorem step_of_decodedWrite {s : State} {rest : List Event} {w : Word} {i : Instr}
    (hs : s.schedule = .access (.writeReg 0x00 w) :: rest) (h : decode w = .ok i) :
    step s = exec i { s with schedule := rest, turn := .host } :=
  (step_of_access hs).trans (runCommandWord_of_decode h _)

/-- While BUSY, the engine runs the command the latch holds. -/
theorem engineMove_of_decode {s : State} {i : Instr} (hb : s.busy = true)
    (h : decode s.latch.word = .ok i) : engineMove s = exec i { s with turn := .engine } := by
  simp only [engineMove, hb, h, if_true]

theorem step_of_engineEvent {s : State} {rest : List Event} (hs : s.schedule = .engine :: rest) :
    step s = engineMove { s with schedule := rest } := by
  simp only [step, nextMove, runEvent, hs]

theorem step_of_nothingScheduled {s : State} (hs : s.schedule = []) : step s = engineMove s := by
  simp only [step, nextMove, hs]

theorem decode_of_decodeTableWord {nbits w : Nat} {i : Instr}
    (h : decodeTableWord nbits w = some i) :
    decode (tableWord nbits w) = .ok i := by
  unfold decodeTableWord at h
  cases hd : decode (tableWord nbits w) with
  | ok j => rw [hd] at h; rw [Option.some.inj h]
  | error r => rw [hd] at h; cases h

/-- Settles O6: three kinds of host moves are CMD writes, and three kinds of moves are the
engine's. -/
theorem stepRunsTheDecodedCommand : Obligations.StepRunsTheDecodedCommand := by
  refine ⟨fun s rest w i hs h => step_of_decodedWrite hs h,
    fun s rest i hs => step_of_decodedWrite hs (decode_encode i),
    fun s rest i hs hb h => ?_, fun s i hs hb h => ?_, fun s rest i hs hb h => ?_,
    fun s w i h => step_of_decodedWrite rfl (decode_of_decodeTableWord h)⟩
  · exact (step_of_engineEvent hs).trans
      (engineMove_of_decode (s := { s with schedule := rest }) hb h)
  · exact (step_of_nothingScheduled hs).trans (engineMove_of_decode hb h)
  · exact (step_of_wait_engine hs hb).trans (engineMove_of_decode hb h)

/-- Settles O33: the WAIT's read of STATUS, the last one or a poll. -/
theorem waitPollsStatusUntilNotBusy : Obligations.WaitPollsStatusUntilNotBusy := by
  refine fun s rest polls hs => ⟨fun hb => step_of_wait_idle hs hb, fun hb n hn => ?_⟩
  subst hn
  exact step_of_wait_poll hs hb

end Sys2Proof.Machine
end

section
/-! The host's procedures CHAIN and APPLY, assembled from the runs of their pieces (30_encoding.md
R69 to R71). -/

namespace Sys2Proof.Machine

/-! ### CHAIN -/

theorem channelsField_setWidth (c : BitVec 2) : channelsField (c.setWidth 32) = c := by
  apply BitVec.eq_of_getLsbD_eq
  intro n hn
  simp [channelsField, hn, show n < 32 by omega]

theorem not_busy_of_done {s : State} (h : s.phase = stateDone) : s.busy = false := by
  rw [busy_eq_false_iff, h]
  decide

/-- Settles O52: the copy is `chainCopy_runs` over the output's indices, then one write of
IMG_FMT. -/
theorem chainMakesTheOutputTheNextInput : Obligations.ChainMakesTheOutputTheNextInput := by
  intro s hdone hs hcap
  obtain ⟨n, t, hsteps, ht, hsrc⟩ := chainCopy_runs (List.range _) s _ s.dstAt
    (not_busy_of_done hdone) (fun a ha => (List.mem_range.mp ha).trans_le hcap) hs
  have hlast := step_of_writeImgFmt (s := t) (by rw [ht])
  refine ⟨n + 1, _, hsteps.trans (Steps.one hlast), rfl, fun a ha => ?_, ?_, ?_, ?_, ?_, ?_⟩
  · exact (hsrc a).trans (if_pos (List.mem_range.mpr ha))
  · exact (channelsField_imgFmtStored _).trans (channelsField_setWidth _)
  all_goals rw [ht]
  · exact fun _ => rfl
  · exact fun _ => rfl

/-! ### WAIT -/

/-- CAP is a parameter (R5): no run changes it. -/
theorem cap_of_steps {n : Nat} {s t : State} (h : Steps n s t) : t.cap = s.cap := by
  induction h with
  | none _ => rfl
  | more hstep _ ih => exact ih.trans (cap_of_move (move_of_step hstep))

/-- From a legal state a WAIT ends, in a state that is not BUSY (R176). -/
theorem wait_ends {s : State} {rest : List Event} {polls : Nat} (h : s.Inv)
    (hs : s.schedule = .wait polls :: rest) :
    ∃ n t, Steps n s t ∧ t.schedule = rest ∧ t.busy = false := by
  cases hb : s.busy with
  | false =>
    obtain ⟨replies, hsteps⟩ := wait_when_idle hs hb
    exact ⟨1, _, hsteps, rfl, hb⟩
  | true =>
    have hV := validated_of_none (h.command.busyIsValidated hb)
    obtain ⟨i, hl⟩ := exists_latched hV
    have hi := implemented_of_validated hV hl
    obtain ⟨n, before, after, hsteps⟩ := wait_when_busy polls hs hb hl hi
    exact ⟨n, _, hsteps, rfl, not_busy_of_done (completionOf_done (s := { s with
      schedule := .wait 0 :: rest, turn := .engine, replies := before }) hi)⟩

/-! ### APPLY -/

/-- The accesses of APPLY from its launch on. -/
def applyLaunch (id param : Half) (polls : Nat) : List Event :=
  [.access (.writeReg 0x00 (commandWord param id)), .wait polls, .access (.readReg 0x04)]

/-- What APPLY's launch latches. -/
def applyLatch (b : PixelBuffer) (id param : Half) : Latch :=
  { id := id, param := param, w := b.w, h := b.h, c := b.c }

/-- The block is at rest, with the buffer in SRC and its geometry in the registers. -/
structure HoldsBuffer (b : PixelBuffer) (s : State) : Prop where
  atRest : s.busy = false
  width : widthField s.imgDim = b.w
  height : heightField s.imgDim = b.h
  channels : channelsField s.imgFmt = b.c
  samples : ∀ a v, b.samples[a]? = some v → a < s.cap → s.srcAt a = v

theorem latchOf_of_holdsBuffer {b : PixelBuffer} {s : State} (h : HoldsBuffer b s)
    (id param : Half) :
    latchOf (commandWord param id) s = applyLatch b id param := by
  simp only [latchOf, applyLatch, idField_commandWord, paramField_commandWord, h.width, h.height,
    h.channels]

/-- APPLY up to its launch: the WAIT ends, the samples are loaded, the geometry is written. -/
theorem apply_loads {b : PixelBuffer} {id param : Half} {polls₁ polls₂ : Nat} {s : State}
    (h : s.Inv) (hs : s.schedule = applySchedule b id param polls₁ polls₂) :
    ∃ n t, Steps n s t ∧ t.schedule = applyLaunch id param polls₂ ∧ HoldsBuffer b t := by
  obtain ⟨n, t₁, hwait, hsched₁, hrest⟩ := wait_ends h hs
  obtain ⟨t₂, hload, ht₂, hsamples, _⟩ := loadSamples_runs b.samples 0 t₁ _ hrest hsched₁
  have hdim := step_of_writeImgDim (s := t₂) (by rw [ht₂])
  have hfmt := step_of_writeImgFmt (s := { t₂ with
    schedule := .access (.writeReg 0x0C (b.c.setWidth 32)) :: applyLaunch id param polls₂
    turn := .host, imgDim := b.h ++ b.w }) rfl
  refine ⟨_, _, (hwait.trans hload).trans (.more hdim (.more hfmt (.none _))), rfl, ?_⟩
  exact {
    atRest := by rw [ht₂]; exact hrest
    width := idField_commandWord b.h b.w
    height := paramField_commandWord b.h b.w
    channels := (channelsField_imgFmtStored _).trans (channelsField_setWidth b.c)
    samples := fun a v ha hcap => by
      have hcap₁ : 0 + a < t₁.cap := by rw [Nat.zero_add]; rwa [ht₂] at hcap
      have := hsamples a v ha hcap₁
      rwa [Nat.zero_add] at this }

/-- The launch of APPLY as a step. -/
theorem apply_launches {b : PixelBuffer} {id param : Half} {polls : Nat} {s : State}
    (h : HoldsBuffer b s) (hs : s.schedule = applyLaunch id param polls) :
    step s = .next (launch (commandWord param id)
      { s with schedule := [.wait polls, .access (.readReg 0x04)], turn := .host }) := by
  rw [step_of_commandWrite hs]
  exact congrArg _ (commandWrite_of_not_busy _ h.atRest)

/-- APPLY's last access reads STATUS, which changes only the replies (R46). -/
theorem apply_reads {s : State} (hs : s.schedule = [.access (.readReg 0x04)]) :
    ∃ replies, Steps 1 s { s with schedule := [], turn := .host, replies := replies } :=
  ⟨_, Steps.one (step_of_readStatus hs)⟩

theorem applyResult_of_not_done (b : PixelBuffer) {s : State} (h : s.phase ≠ stateDone) :
    applyResult b s = .error (errField s.status) := if_neg h

theorem applyResult_of_done (b : PixelBuffer) {s : State} (h : s.phase = stateDone) :
    applyResult b s = .ok
      { w := b.w
        h := b.h
        c := outCField s.outFmt
        samples := (List.range (b.w.toNat * b.h.toNat * (outCField s.outFmt).toNat)).map
          s.dstAt } :=
  if_pos h

/-- APPLY of a command that validation refuses ends in ERROR with the error's code, and SRC is as it
was. -/
theorem apply_refused {b : PixelBuffer} {id param : Half} {polls : Nat} {s : State} {e : ErrorKind}
    (h : HoldsBuffer b s) (hs : s.schedule = applyLaunch id param polls)
    (hv : validate s.cap (applyLatch b id param) = some e) :
    ∃ n u, Steps n s u ∧ u.schedule = [] ∧ u.latch = applyLatch b id param ∧
      (∀ a, u.srcAt a = s.srcAt a) ∧ applyResult b u = .error e.code := by
  have hlatch := latchOf_of_holdsBuffer h id param
  have hlaunch := apply_launches h hs
  have hrefused := launch_recordsRefusal (s := { s with
    schedule := [.wait polls, .access (.readReg 0x04)], turn := .host })
    ((congrArg (validate s.cap) hlatch).trans hv)
  generalize launch _ _ = r at hlaunch hrefused
  have hdone : r.phase ≠ stateDone := by rw [hrefused.error]; decide
  have hbusy : r.busy = false := by rw [busy_eq_false_iff, hrefused.error]; decide
  have hcode : errField r.status = e.code := by cases e <;> exact hrefused.code
  obtain ⟨replies, hwait⟩ := wait_when_idle hrefused.frame.outside.schedule hbusy
  obtain ⟨replies', hread⟩ := apply_reads (s := { r with
    schedule := [.access (.readReg 0x04)], turn := .host, replies := replies }) rfl
  refine ⟨_, _, .more hlaunch (hwait.trans hread), rfl, hrefused.latch.trans hlatch,
    hrefused.frame.samples.src, ?_⟩
  exact (applyResult_of_not_done b hdone).trans (congrArg _ hcode)

/-- The command of the latch `l` runs, undisturbed, and SRC is as in `s`. -/
structure RunsOnSource (l : Latch) (s r : State) : Prop where
  running : r.busy = true
  undisturbed : r.srcHazard = false
  latched : r.latch = l
  src : ∀ a, r.srcAt a = s.srcAt a

/-- The launch of APPLY, accepted. -/
theorem apply_accepts {b : PixelBuffer} {id param : Half} {polls : Nat} {s : State}
    (h : HoldsBuffer b s) (hs : s.schedule = applyLaunch id param polls)
    (hv : validate s.cap (applyLatch b id param) = none) :
    ∃ r, step s = .next r ∧ r.schedule = [.wait polls, .access (.readReg 0x04)] ∧
      RunsOnSource (applyLatch b id param) s r := by
  have hlatch := latchOf_of_holdsBuffer h id param
  have hlaunch := apply_launches h hs
  rw [launch_accepted (s := { s with
    schedule := [.wait polls, .access (.readReg 0x04)], turn := .host })
    ((congrArg (validate s.cap) hlatch).trans hv)] at hlaunch
  refine ⟨_, hlaunch, rfl, ?_, rfl, hlatch, fun _ => rfl⟩
  rw [busy_eq_true_iff, State.phase, acceptLaunch_status, stateField_setStateField]

theorem completionOf_latch (i : Instr) (s : State) : (completionOf i s).latch = s.latch := by
  obtain ⟨c, f, h⟩ | ⟨c, f, table, h⟩ | ⟨_, h⟩ := completionOf_cases i s <;> rw [h] <;> rfl

/-- The end of APPLY from a running command: the engine completes it, and the host reads STATUS. -/
theorem apply_completes {b : PixelBuffer} {polls : Nat} {l : Latch} {s r : State} {i : Instr}
    (h : RunsOnSource l s r) (hs : r.schedule = [.wait polls, .access (.readReg 0x04)])
    (hl : l.word = encode i) (hi : i.implemented = true) :
    ∃ n u q, Steps n r u ∧ u.schedule = [] ∧ u.latch = l ∧ (∀ a, u.srcAt a = s.srcAt a) ∧
      Completing i q ∧ RunsOnSource l s q ∧
      applyResult b u = applyResult b (completionOf i q) := by
  have hword : r.latch.word = encode i := by rw [h.latched, hl]
  obtain ⟨n, before, after, hwait⟩ := wait_when_busy polls hs h.running hword hi
  generalize hq : ({ r with
    schedule := _, turn := .engine, replies := before } : State) = q at hwait
  obtain ⟨replies, hread⟩ := apply_reads (s := { completionOf i q with
    schedule := [.access (.readReg 0x04)], turn := .host, replies := after }) rfl
  have hruns : RunsOnSource l s q := by
    rw [← hq]
    exact ⟨h.running, h.undisturbed, h.latched, h.src⟩
  obtain ⟨hsrc, hepoch, _⟩ := completionOf_src i q
  refine ⟨_, _, q, hwait.trans hread, rfl, ?_, ?_, ?_, hruns, rfl⟩
  · exact (completionOf_latch i q).trans hruns.latched
  · exact fun a => (srcAt_congr (s := q) hsrc hepoch a).trans (hruns.src a)
  · exact ⟨by rw [← hq], hruns.running, by rw [hruns.latched, hl]⟩

/-- A validated word is a command the block implements. -/
theorem exists_command_of_valid {cap : Nat} {l : Latch} (h : validate cap l = none) :
    ∃ i, l.word = encode i ∧ i.implemented = true := by
  have hV : Validated cap l := validated_of_none h
  obtain ⟨i, hl⟩ := exists_latched (s := { State.reset with latch := l, cap := cap }) hV
  exact ⟨i, hl, implemented_of_validated (s := { State.reset with latch := l, cap := cap }) hV hl⟩

/-- Settles O51: APPLY loads the buffer (`apply_loads`), and validation decides how it ends
(`apply_refused`; `apply_accepts`, `apply_completes`). -/
theorem applyRunsTheFilterOnTheBuffer : Obligations.ApplyRunsTheFilterOnTheBuffer := by
  intro b id param polls₁ polls₂ s hinv hs hlength l
  obtain ⟨n, t, hload, hsched, hholds⟩ := apply_loads hinv hs
  have hcap : t.cap = s.cap := cap_of_steps hload
  have hsamples := hholds.samples
  rw [hcap] at hsamples
  cases hv : validate s.cap l with
  | some e =>
    obtain ⟨m, u, hsteps, hnil, hlatch, hsrc, hresult⟩ :=
      apply_refused hholds hsched (hcap ▸ hv)
    refine ⟨n + m, u, hload.trans hsteps, hnil, hlatch, fun a v ha hlt => ?_, ?_, nofun⟩
    · rw [hsrc, hsamples a v ha hlt]
    · rintro _ ⟨⟩
      exact hresult
  | none =>
    obtain ⟨i, hl, hi⟩ := exists_command_of_valid hv
    obtain ⟨r, hlaunch, hsched', hruns⟩ := apply_accepts hholds hsched (hcap ▸ hv)
    obtain ⟨m, u, q, hsteps, hnil, hlatch, hsrc, hq, hqruns, hresult⟩ :=
      apply_completes (b := b) hruns hsched' hl hi
    refine ⟨_, u, hload.trans (.more hlaunch hsteps), hnil, hlatch, fun a v ha hlt => ?_, nofun,
      fun _ => ⟨i, q, _, hl.symm, ⟨hq, hqruns.undisturbed⟩, hqruns.latched, fun a v ha => ?_,
        exec_of_completing hq, ?_⟩⟩
    · rw [hsrc, hsamples a v ha hlt]
    · have hlt : a < s.cap := by
        obtain ⟨hbound, _⟩ := List.getElem?_eq_some_iff.mp ha
        exact (hlength ▸ hbound).trans_le (validated_of_none hv).input
      rw [hqruns.src, hsamples a v ha hlt]
    · rw [hresult]
      exact applyResult_of_done b (completionOf_done hi)

end Sys2Proof.Machine
end

section
/-! The gray plane and the commands TOGRAY and GRAY2COLOR (40_color_to_grayscale.md R80 to R87): what luma
keeps, what an undisturbed command stores, and the round trip of the two. -/

namespace Sys2Proof.Machine

/-! ### Luma -/

/-- R84 (a): the three weights add up to 2^14, so a gray pixel keeps its value. -/
theorem luma_of_gray (v : Byte) : luma v v v = v := by
  apply BitVec.eq_of_toNat_eq
  rw [luma_toNat]
  omega

/-- R84 (b): no weight is negative, and rounding keeps order. -/
theorem luma_mono {b g r b' g' r' : Byte} (hb : b ≤ b') (hg : g ≤ g') (hr : r ≤ r') :
    luma b g r ≤ luma b' g' r' := by
  rw [BitVec.le_def] at hb hg hr ⊢
  rw [luma_toNat, luma_toNat]
  apply Nat.div_le_div_right
  omega

/-- Settles O36: R83's value, R84 clause by clause, and the two cases of R85. -/
theorem grayPlaneIsLuma : Obligations.GrayPlaneIsLuma :=
  ⟨luma_toNat, luma_of_gray, fun _ _ _ _ _ _ => luma_mono, by decide,
    fun _ y x => ⟨fun h1 => gray_of_one h1 y x, fun h3 => gray_of_three h3 y x⟩⟩

/-! ### The two commands -/

/-- The end of an undisturbed command that publishes no table (R171): its output, and all the rest as it
was. -/
theorem deliver_of_undisturbed (cOut : BitVec 2) (f : Nat → Nat → Nat → Byte) {s : State}
    (h : s.srcHazard = false) :
    (∀ y x c, s.hasPixel y x → c < cOut.toNat →
      (deliver cOut f s).dstAt (idx s.width cOut.toNat y x c) = f y x c) ∧
    Delivered cOut.toNat (deliver cOut f s) ∧ CompletionFrame cOut.toNat s (deliver cOut f s) ∧
    TableFrame s (deliver cOut f s) ∧ (deliver cOut f s).draws = s.draws :=
  ⟨fun _ _ _ hp hc => deliver_dstAt_of_undisturbed cOut f h hp hc, deliver_delivered cOut f s,
    deliver_frame cOut f s, deliver_tableFrame cOut f s, by simp [h]⟩

/-- Settles O14: TOGRAY delivers the gray plane in one channel. -/
theorem tograyStoresTheGrayPlane : Obligations.TograyStoresTheGrayPlane := by
  intro p s h
  obtain ⟨hstored, hrest⟩ := deliver_of_undisturbed 1 (fun y x _ => s.gray y x) h.undisturbed
  exact ⟨_, exec_of_completing h.completing, fun y x hp => hstored y x 0 hp Nat.one_pos, hrest⟩

/-- Settles O15: GRAY2COLOR delivers the input's one channel in three. -/
theorem gray2colorReplicatesTheChannel : Obligations.Gray2colorReplicatesTheChannel := fun _ s h =>
  ⟨_, exec_of_completing h.completing,
    deliver_of_undisturbed 3 (fun y x _ => s.srcAt (idx s.width 1 y x 0)) h.undisturbed⟩

/-! ### The round trip -/

/-- Settles O50: GRAY2COLOR leaves three equal samples in each pixel (O15), TOGRAY stores their luma (O14),
and that is the sample again (`luma_of_gray`). -/
theorem tograyUndoesGray2color : Obligations.TograyUndoesGray2color := by
  intro p q s t u hs hexec hu hw hh hc hsrc
  obtain ⟨t', hexec', hcolor, -⟩ := gray2colorReplicatesTheChannel p s hs
  obtain rfl : t = t' := Host.Outcome.next.inj (hexec.symm.trans hexec')
  obtain ⟨v, hv, hgray, -⟩ := tograyStoresTheGrayPlane q u hu
  have hwidth : u.width = s.width := congrArg BitVec.toNat hw
  have hheight : u.height = s.height := congrArg BitVec.toNat hh
  refine ⟨v, hv, fun y x hp => ?_⟩
  have hsample : ∀ c, c < 3 → u.srcAt (idx s.width 3 y x c) = s.srcAt (idx s.width 1 y x 0) := by
    intro c hc3
    have hinside : idx s.width 3 y x c < s.width * s.height * 3 := idx_lt hp.1 hp.2 hc3
    rw [hsrc _ (by omega), hcolor y x c hp hc3]
  calc v.dstAt (idx s.width 1 y x 0)
      = u.gray y x := by rw [← hwidth, hgray y x ⟨hheight ▸ hp.1, hwidth ▸ hp.2⟩]
    _ = s.srcAt (idx s.width 1 y x 0) := by
      rw [gray_of_three hc, hwidth, hsample 0 (by decide), hsample 1 (by decide),
        hsample 2 (by decide), luma_of_gray]

end Sys2Proof.Machine
end

section
/-! Rounding and saturation (41_clamping_saturator.md R90, R91, R96): `rnd_div` against the exact quotient, the
shift form of the same rounding, and the three ranges of the saturator. -/

namespace Sys2Proof.Machine

/-! ### Rounding -/

/-- R90, lower bound: the exact quotient n/d is at least `rnd_div` less one half. -/
theorem rndDiv_lower (n : Int) {d : Nat} (hd : 0 < d) : (2 * rndDiv n d - 1) * d ≤ 2 * n := by
  have hfloor : rndDiv n d * (2 * d) ≤ 2 * n + d := Int.ediv_mul_le _ (by omega)
  linarith

/-- R90, upper bound, strict: a quotient half-way between two integers goes to the larger. -/
theorem rndDiv_upper (n : Int) {d : Nat} (hd : 0 < d) : 2 * n < (2 * rndDiv n d + 1) * d := by
  have hfloor : 2 * n + d < (rndDiv n d + 1) * (2 * d) := Int.lt_ediv_add_one_mul_self _ (by omega)
  linarith

/-- R96: for d = 2^n the factor 2 of R90's formula cancels, which leaves the added half and the shift. -/
theorem roundShift_eq_rndDiv (a : Nat) {n : Nat} (hn : 1 ≤ n) :
    (roundShift a n : Int) = rndDiv a (2 ^ n) := by
  have hhalf : 2 ^ n = 2 * 2 ^ (n - 1) := (mul_pow_sub_one (by omega) 2).symm
  have hdouble : 2 * a + 2 ^ n = 2 * (a + 2 ^ (n - 1)) := by omega
  rw [rndDiv_natCast, roundShift_eq, hdouble, Nat.mul_div_mul_left _ _ Nat.two_pos]

/-- Settles O34: R90's formula, its two bounds around the exact quotient, and R96's shift form. -/
theorem roundingIsToNearestTiesUp : Obligations.RoundingIsToNearestTiesUp :=
  ⟨fun n _ hd => ⟨rfl, rndDiv_lower n hd, rndDiv_upper n hd⟩, fun a _ hn => roundShift_eq_rndDiv a hn⟩

/-! ### Saturation -/

theorem sat8_of_neg {v : Int} (h : v < 0) : (sat8 v).toNat = 0 := by
  have := sat8_toInt v
  omega

theorem sat8_of_gt {v : Int} (h : 255 < v) : (sat8 v).toNat = 255 := by
  have := sat8_toInt v
  omega

theorem sat8_of_inRange {v : Int} (h0 : 0 ≤ v) (h255 : v ≤ 255) : ((sat8 v).toNat : Int) = v := by
  rw [sat8_toInt, min_eq_left h255, max_eq_right h0]

/-- R91, idempotence: a byte's value is in range, so a second clamp keeps it. -/
theorem sat8_idem (v : Int) : sat8 ((sat8 v).toNat : Int) = sat8 v :=
  BitVec.eq_of_toNat_eq (sat8_natCast (Nat.le_of_lt_succ (sat8 v).isLt))

/-- Settles O35: R91's three ranges, monotonicity and idempotence. -/
theorem saturatorClampsToByteRange : Obligations.SaturatorClampsToByteRange :=
  ⟨fun _ => ⟨sat8_of_neg, sat8_of_gt, sat8_of_inRange⟩, fun _ _ => sat8_mono, sat8_idem⟩

end Sys2Proof.Machine
end

section
/-! HISTEQ (42_histogram_equalization_lut.md R100 to R105): the published table as a function of the latched
image, and why a second pass changes nothing. -/

namespace Sys2Proof.Machine

/-! ### The table -/

/-- Entry i of the table that HISTEQ publishes for the latched image (R102). -/
def State.equalised (s : State) (i : Nat) : Byte := histeqEntry (s.width * s.height) (s.cdf i)

/-- R102's formula. -/
theorem equalised_toNat (s : State) (i : Nat) : (s.equalised i).toNat
    = (510 * s.cdf i + s.width * s.height) / (2 * (s.width * s.height)) :=
  histeqEntry_toNat (cdf_le s i)

/-- R105 (a): a brighter value has at least as many pixels at or below it. -/
theorem equalised_mono (s : State) {i j : Nat} (h : i ≤ j) :
    (s.equalised i).toNat ≤ (s.equalised j).toNat := by
  have hcdf := cdf_mono s h
  rw [equalised_toNat, equalised_toNat]
  apply Nat.div_le_div_right
  omega

/-- R105 (b): from the brightest value present on, CDF = N, and 255 is R102's quotient. -/
theorem equalised_of_forall_le {s : State} {m i : Nat} (hN : 0 < s.width * s.height)
    (h : ∀ y x, s.hasPixel y x → (s.gray y x).toNat ≤ m) (hi : m ≤ i) : s.equalised i = 255 := by
  apply BitVec.eq_of_toNat_eq
  rw [equalised_toNat, cdf_eq_of_forall_le h hi]
  generalize s.width * s.height = N at hN
  change (510 * N + N) / (2 * N) = 255
  exact Nat.div_eq_of_lt_le (by omega) (by omega)

/-- The last value whose table entry is at most entry i. -/
def State.lastWithEntry (s : State) (i : Nat) : Nat :=
  Nat.findGreatest (fun j => (s.equalised j).toNat ≤ (s.equalised i).toNat) 255

/-- Its entry is entry i: no smaller, as i itself is not past it. -/
theorem equalised_lastWithEntry (s : State) {i : Nat} (hi : i ≤ 255) :
    s.equalised (s.lastWithEntry i) = s.equalised i := by
  have hle : (s.equalised (s.lastWithEntry i)).toNat ≤ (s.equalised i).toNat :=
    Nat.findGreatest_spec (P := fun j => (s.equalised j).toNat ≤ (s.equalised i).toNat) hi le_rfl
  have hlast : i ≤ s.lastWithEntry i := Nat.le_findGreatest hi le_rfl
  exact BitVec.eq_of_toNat_eq (Nat.le_antisymm hle (equalised_mono s hlast))

/-- The table is monotone, so the values with an entry at most entry i are those up to the last one. -/
theorem equalised_le_iff (s : State) {i j : Nat} (hi : i ≤ 255) (hj : j ≤ 255) :
    (s.equalised j).toNat ≤ (s.equalised i).toNat ↔ j ≤ s.lastWithEntry i :=
  ⟨fun h => Nat.le_findGreatest hj h,
    fun h => equalised_lastWithEntry s hi ▸ equalised_mono s h⟩

/-! ### What HISTEQ leaves -/

theorem eq_completeHisteq_of_exec {p : Half} {s t : State}
    (h : CompletingUndisturbed (.histeq p) s) (hexec : exec (.histeq p) s = .next t) :
    t = completeHisteq s :=
  Host.Outcome.next.inj (hexec.symm.trans (exec_of_completing h.completing))

/-- The table is `State.equalised`. -/
theorem lutAt_eq_equalised {s : State} (h : s.srcHazard = false) {i : Nat} (hi : i < 256) :
    (completeHisteq s).lutAt i = s.equalised i := lutAt_completeHisteq h hi

/-- The output is `State.equalised` of the gray plane. -/
theorem dstAt_eq_equalised {s : State} (h : s.srcHazard = false) {y x c : Nat}
    (hp : s.hasPixel y x) (hc : c < s.chans) :
    (completeHisteq s).dstAt (idx s.width s.chans y x c) = s.equalised (s.gray y x).toNat :=
  dstAt_completeHisteq h hp hc

/-- HISTEQ writes no LUT index above 255. -/
theorem lutAt_completeHisteq_beyond (s : State) {i : Nat} (hi : 256 ≤ i) :
    (completeHisteq s).lutAt i = s.lutAt i := by
  unfold completeHisteq expand
  rw [(deliver_tableFrame _ _ _).lut, publishTable_lutAt, if_neg (by omega)]

theorem completeHisteq_draws {s : State} (h : s.srcHazard = false) :
    (completeHisteq s).draws = s.draws := by
  simp [completeHisteq, expand, h]

/-- Settles O16: the completion publishes `State.equalised`, delivers it of the gray plane, and is
otherwise framed as `publishTable` and `deliver` are. -/
theorem histeqEqualisesTheGrayPlane : Obligations.HisteqEqualisesTheGrayPlane := by
  intro p s h
  have hu := h.undisturbed
  obtain ⟨hvalid, hother⟩ := publish_deliver_outFmt s.latch.c _ _ s
  refine ⟨completeHisteq s, exec_of_completing h.completing, fun i hi => ?_,
    fun i => lutAt_completeHisteq_beyond s, fun y x c hp hc => ?_, hvalid, hother,
    completionOf_delivered (i := .histeq p) s rfl, publish_deliver_frame s.latch.c _ _ s,
    completeHisteq_draws hu⟩
  · rw [lutAt_eq_equalised hu hi, equalised_toNat]
  · rw [dstAt_eq_equalised hu hp hc, lutAt_eq_equalised hu (s.gray y x).isLt]

/-- Settles O45: R105 (a) and (b) are laws of `State.equalised`; (c) is (b) for the one value present. -/
theorem histeqTableIsMonotoneAndReachesWhite :
    Obligations.HisteqTableIsMonotoneAndReachesWhite := by
  intro p s t h hw hh hexec
  have hu := h.undisturbed
  have hN : 0 < s.width * s.height := Nat.mul_pos hw hh
  rw [eq_completeHisteq_of_exec h hexec]
  refine ⟨fun i j hij hj => ?_, fun m hm i hi hi' => ?_, fun v hv y x c hp hc => ?_⟩
  · rw [lutAt_eq_equalised hu (by omega), lutAt_eq_equalised hu hj]
    exact equalised_mono s hij
  · rw [lutAt_eq_equalised hu hi', equalised_of_forall_le hN hm hi]
  · have hflat : ∀ y x, s.hasPixel y x → (s.gray y x).toNat ≤ v.toNat := fun y x hp =>
      (congrArg BitVec.toNat (hv y x hp)).le
    rw [dstAt_eq_equalised hu hp hc, hv y x hp, equalised_of_forall_le hN hflat le_rfl]

/-! ### A second pass -/

/-- A pixel whose samples are all equal has their value as its gray value (R84 (a), R85). -/
theorem gray_of_equal_samples {s : State} (hc : s.latch.c = 1 ∨ s.latch.c = 3) {y x : Nat} {v : Byte}
    (h : ∀ c, c < s.chans → s.srcAt (idx s.width s.chans y x c) = v) : s.gray y x = v := by
  rcases hc with h1 | h3
  · have hchans : s.chans = 1 := congrArg BitVec.toNat h1
    rw [hchans] at h
    rw [gray_of_one h1, h 0 (by decide)]
  · have hchans : s.chans = 3 := congrArg BitVec.toNat h3
    rw [hchans] at h
    rw [gray_of_three h3, h 0 (by decide), h 1 (by decide), h 2 (by decide), luma_of_gray]

/-- `u` holds the equalised image of `s`. -/
structure HoldsEqualised (s u : State) : Prop where
  width : u.width = s.width
  height : u.height = s.height
  gray : ∀ y x, s.hasPixel y x → u.gray y x = s.equalised (s.gray y x).toNat

/-- Two images of one size count the same where they count the same pixels. -/
theorem cdf_congr {s u : State} (hw : u.width = s.width) (hh : u.height = s.height) {i j : Nat}
    (h : ∀ y x, s.hasPixel y x → ((u.gray y x).toNat ≤ j ↔ (s.gray y x).toNat ≤ i)) :
    u.cdf j = s.cdf i := by
  rw [State.cdf, State.cdf, hw, hh]
  refine List.countP_congr fun yx hyx => ?_
  rw [decide_eq_true_iff, decide_eq_true_iff]
  exact h yx.1 yx.2 (mem_pixels.mp hyx)

/-- R105 (f): the pixels of the output at or below a level are those of the input up to the last value m
with that level, so the second table sends the level where the first sent m, which is to itself. -/
theorem equalised_of_equalised {s u : State} (h : HoldsEqualised s u) {i : Nat} (hi : i ≤ 255) :
    u.equalised (s.equalised i).toNat = s.equalised i := by
  have hcdf : u.cdf (s.equalised i).toNat = s.cdf (s.lastWithEntry i) :=
    cdf_congr h.width h.height fun y x hp => by
      rw [h.gray y x hp]
      exact equalised_le_iff s hi (Nat.le_of_lt_succ (s.gray y x).isLt)
  calc u.equalised (s.equalised i).toNat
      = s.equalised (s.lastWithEntry i) := by
        rw [State.equalised, hcdf, h.width, h.height, State.equalised]
    _ = s.equalised i := equalised_lastWithEntry s hi

/-- The output of HISTEQ, as the input of a second command. -/
theorem holdsEqualised_of_copied {s u : State} (hs : s.srcHazard = false)
    (hc : s.latch.c = 1 ∨ s.latch.c = 3) (hlatch : u.latch = s.latch)
    (hsrc : ∀ a, a < s.width * s.height * s.chans → u.srcAt a = (completeHisteq s).dstAt a) :
    HoldsEqualised s u := by
  have hwidth : u.width = s.width := by rw [State.width, State.width, hlatch]
  have hheight : u.height = s.height := by rw [State.height, State.height, hlatch]
  have hchans : u.chans = s.chans := by rw [State.chans, State.chans, hlatch]
  refine ⟨hwidth, hheight, fun y x hp => gray_of_equal_samples (hlatch ▸ hc) fun c hcu => ?_⟩
  rw [hchans] at hcu
  rw [hwidth, hchans, hsrc _ (idx_lt hp.1 hp.2 hcu), dstAt_eq_equalised hs hp hcu]

/-- Settles O46: both outputs are tables of gray planes, and the second table fixes the levels of the first
(`equalised_of_equalised`). -/
theorem histeqIsIdempotent : Obligations.HisteqIsIdempotent := by
  intro p s t u v hs hc hexec hu hlatch hsrc hexec' y x c hp hcs
  rw [eq_completeHisteq_of_exec hs hexec] at hsrc ⊢
  rw [eq_completeHisteq_of_exec hu hexec']
  have h := holdsEqualised_of_copied hs.undisturbed hc hlatch hsrc
  have hchans : u.chans = s.chans := by rw [State.chans, State.chans, hlatch]
  have hpu : u.hasPixel y x := ⟨h.height ▸ hp.1, h.width ▸ hp.2⟩
  calc (completeHisteq u).dstAt (idx s.width s.chans y x c)
      = u.equalised (u.gray y x).toNat := by
        rw [← h.width, ← hchans, dstAt_eq_equalised hu.undisturbed hpu (hchans ▸ hcs)]
    _ = s.equalised (s.gray y x).toNat := by
        rw [h.gray y x hp, equalised_of_equalised h (Nat.le_of_lt_succ (s.gray y x).isLt)]
    _ = (completeHisteq s).dstAt (idx s.width s.chans y x c) :=
        (dstAt_eq_equalised hs.undisturbed hp hcs).symm

end Sys2Proof.Machine
end

section
/-! GAMMA (43_gamma_correction_lut.md R110 to R114): the order and the fixed points of the table's entries,
and what the command leaves. -/

namespace Sys2Proof.Machine

/-! ### The order of the entries -/

/-- An entry is at most another that admits all its levels. -/
theorem gammaEntry_le_of_forall_reaches {i j g g' : Nat}
    (h : ∀ m, GammaReaches i g m → GammaReaches j g' m) : gammaEntry i g ≤ gammaEntry j g' := by
  rw [BitVec.le_def]
  rcases gammaEntry_reaches i g with hzero | hreaches
  · rw [hzero]
    exact Nat.zero_le _
  · exact le_gammaEntry (h _ hreaches) (Nat.le_of_lt_succ (gammaEntry i g).isLt)

/-- R114 (c). -/
theorem gammaEntry_mono {i j : Nat} (g : Nat) (hij : i ≤ j) : gammaEntry i g ≤ gammaEntry j g :=
  gammaEntry_le_of_forall_reaches fun _ h => h.mono hij

/-- R114 (d); the ends need no exception, as they are fixed. -/
theorem gammaEntry_anti {i g g' : Nat} (hi : i ≤ 255) (hg : g ≤ g') :
    gammaEntry i g' ≤ gammaEntry i g :=
  gammaEntry_le_of_forall_reaches fun _ h => h.anti hi hg

/-! ### The fixed points -/

/-- R114 (a): the levels admitted with γ = 1 are those up to i, so the largest is i. -/
theorem gammaEntry_one {i : Nat} (hi : i ≤ 255) : (gammaEntry i 256).toNat = i := by
  have hge : i ≤ (gammaEntry i 256).toNat :=
    le_gammaEntry (gammaReaches_one_iff.mpr (Nat.sub_le _ _)) hi
  rcases gammaEntry_reaches i 256 with hzero | hreaches
  · omega
  · have hle := gammaReaches_one_iff.mp hreaches
    omega

/-- R114 (b), black. -/
theorem gammaEntry_black {g : Nat} (hg : 1 ≤ g) : gammaEntry 0 g = 0 := by
  apply BitVec.eq_of_toNat_eq
  rcases gammaEntry_reaches 0 g with hzero | hreaches
  · exact hzero
  · by_contra hne
    exact not_gammaReaches_black hg (Nat.one_le_iff_ne_zero.mpr hne) hreaches

/-- R114 (b), white. -/
theorem gammaEntry_white (g : Nat) : gammaEntry 255 g = 255 :=
  BitVec.eq_of_toNat_eq <| Nat.le_antisymm (Nat.le_of_lt_succ (gammaEntry 255 g).isLt)
    (le_gammaEntry (gammaReaches_white g) le_rfl)

/-- Settles O48: (c) and (d) are the order of the admitted levels; the last two parts compare with the
identity at γ = 1. -/
theorem gammaEntryIsMonotone : Obligations.GammaEntryIsMonotone := by
  refine ⟨fun i j g hij _ _ => gammaEntry_mono g hij,
    fun i g g' hi _ hg => gammaEntry_anti (Nat.le_of_lt_succ hi) hg,
    fun i g hi _ hg => ?_, fun i g hi hg => ?_⟩
  · calc i = (gammaEntry i 256).toNat := (gammaEntry_one (Nat.le_of_lt_succ hi)).symm
      _ ≤ (gammaEntry i g).toNat := BitVec.le_def.mp (gammaEntry_anti (Nat.le_of_lt_succ hi) hg)
  · calc (gammaEntry i g).toNat
      _ ≤ (gammaEntry i 256).toNat := BitVec.le_def.mp (gammaEntry_anti (Nat.le_of_lt_succ hi) hg)
      _ = i := gammaEntry_one (Nat.le_of_lt_succ hi)

/-! ### What GAMMA leaves -/

/-- The LUT after a command that publishes a table: the table, and above it the entries of before. -/
theorem publish_deliver_lutAt (cOut : BitVec 2) (f : Nat → Nat → Nat → Byte) (table : Nat → Byte)
    (s : State) (i : Nat) : (deliver cOut f (publishTable table s)).lutAt i
      = if i < 256 then table i else s.lutAt i := by
  rw [(deliver_tableFrame _ _ _).lut, publishTable_lutAt]

theorem completeGamma_draws {s : State} (h : s.srcHazard = false) :
    (completeGamma s).draws = s.draws := by
  simp [completeGamma, expand, h]

/-- The table of a GAMMA that completes is that of its own operand. -/
theorem lutAt_of_completing_gamma {g : Half} {s : State} (h : Completing (.gamma g) s)
    (hg : 0 < g.toInt) {i : Nat} (hi : i < 256) :
    (completeGamma s).lutAt i = gammaEntry i g.toNat := by
  rw [lutAt_completeGamma s hi, gammaParam_of_latched h.latched hg]

/-- R112: the output is the published table's entry of the gray value. -/
theorem dstAt_eq_lutAt_gray {s : State} (h : s.srcHazard = false) {y x c : Nat}
    (hp : s.hasPixel y x) (hc : c < s.chans) :
    (completeGamma s).dstAt (idx s.width s.chans y x c)
      = (completeGamma s).lutAt (s.gray y x).toNat := by
  rw [dstAt_completeGamma h hp hc, lutAt_completeGamma s (s.gray y x).isLt]

/-- Settles O17: the completion publishes `gammaEntry` of the operand, delivers it of the gray plane, and
is otherwise framed as `publishTable` and `deliver` are. -/
theorem gammaAppliesThePowerLaw : Obligations.GammaAppliesThePowerLaw := by
  intro g s h hg
  obtain ⟨hvalid, hother⟩ := publish_deliver_outFmt s.latch.c _ _ s
  refine ⟨completeGamma s, exec_of_completing h.completing, fun i hi => ?_, fun i hi => ?_,
    fun y x c => dstAt_eq_lutAt_gray h.undisturbed, hvalid, hother,
    completionOf_delivered (i := .gamma g) s rfl, publish_deliver_frame s.latch.c _ _ s,
    completeGamma_draws h.undisturbed⟩
  · rw [lutAt_of_completing_gamma h.completing hg hi]
    exact ⟨gammaEntry_reaches i g.toNat, fun m => not_gammaReaches_above⟩
  · exact (publish_deliver_lutAt s.latch.c _ _ s i).trans (if_neg (Nat.not_lt.mpr hi))

theorem one_le_toNat_of_toInt_pos {g : Half} (hg : 0 < g.toInt) : 1 ≤ g.toNat := by
  have hvalue := BitVec.toInt_eq_toNat_cond g
  split at hvalue <;> omega

/-- Settles O47: the entries' fixed points, and for the copied image that a one-channel input is its own
gray plane (R85). -/
theorem gammaOneIsIdentityAndEndsAreFixed : Obligations.GammaOneIsIdentityAndEndsAreFixed := by
  intro g s t h hg hexec
  obtain rfl : t = completeGamma s :=
    Host.Outcome.next.inj (hexec.symm.trans (exec_of_completing h.completing))
  refine ⟨⟨?_, ?_⟩, ?_⟩
  · rw [lutAt_of_completing_gamma h.completing hg (by decide),
      gammaEntry_black (one_le_toNat_of_toInt_pos hg)]
  · rw [lutAt_of_completing_gamma h.completing hg (by decide), gammaEntry_white]
  · rintro rfl
    have hidentity : ∀ i, i < 256 → ((completeGamma s).lutAt i).toNat = i := fun i hi => by
      rw [lutAt_of_completing_gamma h.completing hg hi]
      exact gammaEntry_one (Nat.le_of_lt_succ hi)
    refine ⟨hidentity, fun hc y x hp => BitVec.eq_of_toNat_eq ?_⟩
    have hchans : s.chans = 1 := congrArg BitVec.toNat hc
    have hstored := dstAt_eq_lutAt_gray h.undisturbed hp (c := 0) (by omega)
    rw [hchans] at hstored
    rw [hstored, hidentity _ (s.gray y x).isLt, gray_of_one hc]

end Sys2Proof.Machine
end

section
/-! GBLUR (44_gaussian_blur_kernel.md R120 to R128): the rows of its kernel table, its two passes as weighted
sums over the taps, the range and the mirror image of what it stores. -/

namespace Sys2Proof.Machine

/-! ### The kernel rows -/

theorem kromRow_length : ∀ k ∈ legalKernelSizes, (kromRow k).length = k := by decide

theorem kromRow_sum : ∀ k ∈ legalKernelSizes, (kromRow k).sum = 65536 := by decide

theorem kromRow_reverse : ∀ k ∈ legalKernelSizes, (kromRow k).reverse = kromRow k := by decide

theorem kromRow_pos_lt : ∀ k ∈ legalKernelSizes, ∀ a ∈ kromRow k, 0 < a ∧ a < 65536 := by decide

theorem krom_lt_krom_succ :
    ∀ k ∈ legalKernelSizes, ∀ j < (k - 1) / 2, krom k j < krom k (j + 1) := by decide

/-- Settles O41: the ten half rows are the table's own entries; the laws of a row are one lemma each. -/
theorem kernelRowsAreUnitGainAndSymmetric : Obligations.KernelRowsAreUnitGainAndSymmetric :=
  ⟨by decide, fun k hk => ⟨kromRow_length k hk, kromRow_sum k hk, kromRow_reverse k hk,
    kromRow_pos_lt k hk, fun _ hj => (krom_reverse hk hj).symm, krom_lt_krom_succ k hk⟩⟩

/-! ### What GBLUR leaves -/

/-- Settles O18: GBLUR delivers `State.blurred`, which is V rounded once. -/
theorem gblurStoresTheBlurredSamples : Obligations.GblurStoresTheBlurredSamples := by
  intro k s h
  obtain ⟨hstored, hrest⟩ := deliver_of_undisturbed s.latch.c s.blurred h.undisturbed
  refine ⟨completeGblur s, exec_of_completing h.completing, fun y x c hp hc => ?_, hrest⟩
  exact (congrArg BitVec.toNat (hstored y x c hp hc)).trans (blurred_toNat s y x c)

/-! ### The passes as weighted sums -/

/-- A weight goes into the sum it stands before. -/
theorem mul_tapSum (s : State) (a : Nat) (f : Nat → Nat) :
    a * s.tapSum f = sumTaps s.kernelSize fun j => a * krom s.kernelSize j * f j := by
  simp only [State.tapSum, ← sumTaps_mul, Nat.mul_assoc]

/-- The two passes may be taken in either order. -/
theorem tapSum_comm (s : State) (f : Nat → Nat → Nat) :
    s.tapSum (fun u => s.tapSum fun v => f u v) = s.tapSum fun v => s.tapSum fun u => f u v := by
  unfold State.tapSum
  simp only [← sumTaps_mul]
  rw [sumTaps_comm]
  simp only [Nat.mul_left_comm]

/-- Settles O42: V is by definition the sum over rows of the sums over columns, `mul_tapSum` writes it with
the product kernel, and `tapSum_comm` turns it round. -/
theorem separableBlurEqualsFullConvolution : Obligations.SeparableBlurEqualsFullConvolution := by
  intro s y x c src
  have hpasses : s.blurV y x c = s.tapSum fun u => s.tapSum fun v => src u v := rfl
  have hfull : s.blurV y x c = s.blurFull y x c := sumTaps_congr fun u _ => mul_tapSum s _ (src u)
  refine ⟨hfull, hpasses, hpasses.trans (tapSum_comm s src), fun j i n => ?_⟩
  rw [tapCoord, Int.add_sub_assoc]

/-! ### The range -/

/-- A sum over taps of values between two bounds lies between the bounds times the gain. -/
theorem tapSum_bounds {s : State} (hk : s.kernelSize ∈ legalKernelSizes) {f : Nat → Nat} {lo hi : Nat}
    (h : ∀ j, lo ≤ f j ∧ f j ≤ hi) : 65536 * lo ≤ s.tapSum f ∧ s.tapSum f ≤ 65536 * hi :=
  ⟨mul_le_sumTaps_krom hk fun j _ => (h j).1, sumTaps_krom_le_mul fun j _ => (h j).2⟩

/-- Every tap of a pixel fetches a pixel of the image. -/
theorem hasPixel_tapCoord {s : State} {y x : Nat} (h : s.hasPixel y x) (k u v : Nat) :
    s.hasPixel (tapCoord k u y s.height) (tapCoord k v x s.width) :=
  ⟨tapCoord_lt k u y (Nat.one_le_of_lt h.1), tapCoord_lt k v x (Nat.one_le_of_lt h.2)⟩

/-- Settles O43: each pass multiplies the bounds by 2^16 (unit gain), and rounding V by 2^32 undoes both. -/
theorem blurStaysWithinTheChannelRange : Obligations.BlurStaysWithinTheChannelRange := by
  intro s c lo hi hk h y x hp
  have hV : 65536 * (65536 * lo) ≤ s.blurV y x c ∧ s.blurV y x c ≤ 65536 * (65536 * hi) :=
    tapSum_bounds hk fun u => tapSum_bounds hk fun v => h _ _ (hasPixel_tapCoord hp _ u v)
  rw [blurred_toNat]
  omega

/-! ### The mirror image -/

/-- A sum over the taps of the mirrored centre is one over the mirrored coordinates: the taps mirror too
(`tapCoord_mirror`), and the kernel is symmetric. -/
theorem tapSum_mirror {s : State} (hk : s.kernelSize ∈ legalKernelSizes) {i n : Nat} (hi : i < n)
    (f : Nat → Nat) : s.tapSum (fun j => f (tapCoord s.kernelSize j (n - 1 - i) n))
      = s.tapSum fun j => f (n - 1 - tapCoord s.kernelSize j i n) := by
  unfold State.tapSum
  rw [← sumTaps_reverse s.kernelSize fun j => krom s.kernelSize j * f (n - 1 - tapCoord _ j i n)]
  refine sumTaps_congr fun j hj => ?_
  simp only [tapCoord_mirror hk hj hi, krom_reverse hk hj]

/-- The two passes over any plane of values, with the latched kernel and geometry. -/
def State.convolve (s : State) (plane : Nat → Nat → Nat) (y x : Nat) : Nat :=
  s.tapSum fun u => s.tapSum fun v =>
    plane (tapCoord s.kernelSize u y s.height) (tapCoord s.kernelSize v x s.width)

/-- V is the convolution of a channel of SRC, by the kernel and geometry of any state with that latch. -/
theorem blurV_eq_convolve {s m : State} (hlatch : m.latch = s.latch) (y x c : Nat) : m.blurV y x c
    = s.convolve (fun y x => (m.srcAt (idx s.width s.chans y x c)).toNat) y x := by
  simp only [State.blurV, State.blurH, State.convolve, State.tapSum, State.kernelSize, State.width,
    State.height, State.chans, hlatch]

/-- The convolution reads the plane at pixels of the image only. -/
theorem convolve_congr {s : State} {plane plane' : Nat → Nat → Nat}
    (h : ∀ y x, s.hasPixel y x → plane y x = plane' y x) {y x : Nat} (hp : s.hasPixel y x) :
    s.convolve plane y x = s.convolve plane' y x :=
  congrArg s.tapSum <| funext fun u => congrArg s.tapSum <| funext fun v =>
    h _ _ (hasPixel_tapCoord hp _ u v)

theorem convolve_mirror_columns {s : State} (hk : s.kernelSize ∈ legalKernelSizes)
    (plane : Nat → Nat → Nat) (y : Nat) {x : Nat} (hx : x < s.width) :
    s.convolve plane y (s.width - 1 - x)
      = s.convolve (fun y x => plane y (s.width - 1 - x)) y x :=
  congrArg s.tapSum <| funext fun _ => tapSum_mirror hk hx _

theorem convolve_mirror_rows {s : State} (hk : s.kernelSize ∈ legalKernelSizes)
    (plane : Nat → Nat → Nat) {y : Nat} (x : Nat) (hy : y < s.height) :
    s.convolve plane (s.height - 1 - y) x
      = s.convolve (fun y x => plane (s.height - 1 - y) x) y x :=
  tapSum_mirror hk hy fun r => s.tapSum fun v => plane r (tapCoord s.kernelSize v x s.width)

theorem blurred_eq_of_blurV_eq {s m : State} {y x y' x' c : Nat}
    (h : m.blurV y x c = s.blurV y' x' c) : m.blurred y x c = s.blurred y' x' c := by
  rw [State.blurred, State.blurred, h]

/-- Settles O44: V of the mirror is the convolution of the mirrored plane, which is the convolution at the
mirrored pixel. -/
theorem blurOfTheMirrorIsTheMirrorOfTheBlur :
    Obligations.BlurOfTheMirrorIsTheMirrorOfTheBlur := by
  intro s m c hlatch hk
  refine ⟨fun h y x hp => blurred_eq_of_blurV_eq ?_, fun h y x hp => blurred_eq_of_blurV_eq ?_⟩
  · rw [blurV_eq_convolve hlatch, blurV_eq_convolve rfl, convolve_mirror_columns hk _ _ hp.2]
    exact convolve_congr (fun y x hp => congrArg BitVec.toNat (h y x hp)) hp
  · rw [blurV_eq_convolve hlatch, blurV_eq_convolve rfl, convolve_mirror_rows hk _ _ hp.1]
    exact convolve_congr (fun y x hp => congrArg BitVec.toNat (h y x hp)) hp

end Sys2Proof.Machine
end

section
/-! SOBEL (45_sobel_edge_detector.md R140 to R148): the square root and the gradients with their ranges,
what the command stores, and the two ends of what it stores. -/

namespace Sys2Proof.Machine

/-! ### The magnitude -/

/-- R144: M is the floor of the square root of S·65536. -/
theorem magnitude_spec (s : State) (y x : Nat) :
    s.magnitude y x * s.magnitude y x ≤ s.gradSquared y x * 65536 ∧
    s.gradSquared y x * 65536 < (s.magnitude y x + 1) * (s.magnitude y x + 1) := by
  rw [magnitude_eq]
  exact isqrt_spec _

theorem isqrt_mul_self (m : Nat) : isqrt (m * m) = m :=
  sqrt_unique (isqrt_spec (m * m)).1 (isqrt_spec (m * m)).2 le_rfl
    (Nat.mul_self_lt_mul_self (Nat.lt_succ_self m))

/-- M is exact where S is a perfect square: S·65536 is the square of 256 times the root. -/
theorem magnitude_of_square {s : State} {y x r : Nat} (h : s.gradSquared y x = r * r) :
    s.magnitude y x = 256 * r := by
  have hsquare : r * r * 65536 = (256 * r) * (256 * r) := by ring
  rw [magnitude_eq, h, hsquare, isqrt_mul_self]

/-- Settles O39: the search is exact (`isqrt_spec`), M is its result at S·65536, and a square has its root. -/
theorem magnitudeIsTheExactSquareRoot : Obligations.MagnitudeIsTheExactSquareRoot :=
  ⟨isqrt_spec, fun s y x =>
    ⟨(magnitude_spec s y x).1, (magnitude_spec s y x).2, fun _ => magnitude_of_square⟩⟩

/-! ### The gradients -/

/-- R143: S is at most 2·1020². -/
theorem gradSquared_le (s : State) (y x : Nat) : s.gradSquared y x ≤ 2080800 := by
  have hS := gradSquared_eq s y x
  obtain ⟨hXlo, hXhi⟩ := gradX_bounds s y x
  obtain ⟨hYlo, hYhi⟩ := gradY_bounds s y x
  have hX : s.gradX y x * s.gradX y x ≤ 1020 * 1020 :=
    mul_self_le_mul_self_of_le_of_neg_le hXhi (by omega)
  have hY : s.gradY y x * s.gradY y x ≤ 1020 * 1020 :=
    mul_self_le_mul_self_of_le_of_neg_le hYhi (by omega)
  omega

/-- R145: 369280² is past the largest S·65536. -/
theorem magnitude_le (s : State) (y x : Nat) : s.magnitude y x ≤ 369279 := by
  have hM := (magnitude_spec s y x).1
  have hS := gradSquared_le s y x
  by_contra hgt
  have hsquare := Nat.mul_self_le_mul_self (show 369280 ≤ s.magnitude y x by omega)
  omega

/-- An image one pixel wide has equal columns in every neighbourhood. -/
theorem gradX_of_width_one {s : State} (h : s.width = 1) (y x : Nat) : s.gradX y x = 0 := by
  simp only [State.gradX, State.grayNear, h, refl_one, sub_self]

/-- An image one pixel high has equal rows in every neighbourhood. -/
theorem gradY_of_height_one {s : State} (h : s.height = 1) (y x : Nat) : s.gradY y x = 0 := by
  simp only [State.gradY, State.grayNear, h, refl_one, sub_self]

/-- Settles O40: the two brackets of R142 are the kernels multiplied out; the bounds and the thin images are
one lemma each. -/
theorem gradientsAreTheSobelKernels : Obligations.GradientsAreTheSobelKernels := by
  intro s y x g
  have hgradX : s.gradX y x
      = (g (-1) 1 + 2 * g 0 1 + g 1 1) - (g (-1) (-1) + 2 * g 0 (-1) + g 1 (-1)) := rfl
  have hgradY : s.gradY y x
      = (g 1 (-1) + 2 * g 1 0 + g 1 1) - (g (-1) (-1) + 2 * g (-1) 0 + g (-1) 1) := rfl
  obtain ⟨hXlo, hXhi⟩ := gradX_bounds s y x
  obtain ⟨hYlo, hYhi⟩ := gradY_bounds s y x
  exact ⟨by rw [hgradX]; ring, by rw [hgradY]; ring, gradSquared_eq s y x, hXlo, hXhi, hYlo, hYhi,
    gradSquared_le s y x, magnitude_le s y x, fun h => gradX_of_width_one h y x,
    fun h => gradY_of_height_one h y x⟩

/-! ### What SOBEL stores -/

/-- Settles O19: SOBEL delivers the normalised magnitude, whose range is that of the two reductions. -/
theorem sobelStoresTheNormalisedMagnitude : Obligations.SobelStoresTheNormalisedMagnitude := by
  intro p s h
  refine ⟨completeSobel s, exec_of_completing h.completing,
    fun hw hh => ⟨_, _, magnitudeRange_of_magnitudes hw hh⟩, fun mmin mmax hr y x c hp hc => ?_,
    (deliver_of_undisturbed s.latch.c _ h.undisturbed).2⟩
  have hle : mmin ≤ mmax := (hr.lower y x hp).trans (hr.upper y x hp)
  have hflat : mmax - mmin = 0 ↔ mmax = mmin := by omega
  rw [dstAt_completeSobel h.undisturbed hr hp hc, normalise_toNat (hr.upper y x hp)]
  simp only [hflat]

/-! ### The ends of the range -/

/-- A flat image has no gradient: every neighbourhood is of one value. -/
theorem magnitude_of_flat {s : State} {v : Byte} (h : ∀ y x, s.hasPixel y x → s.gray y x = v)
    {y x : Nat} (hp : s.hasPixel y x) : s.magnitude y x = 0 := by
  have hnear : ∀ dy dx, s.grayNear y x dy dx = v.toNat := fun dy dx =>
    congrArg (fun b : Byte => (b.toNat : Int)) <| h _ _
      ⟨refl_lt _ (Nat.one_le_of_lt hp.1), refl_lt _ (Nat.one_le_of_lt hp.2)⟩
  have hX : s.gradX y x = 0 := by simp only [State.gradX, hnear, sub_self]
  have hY : s.gradY y x = 0 := by simp only [State.gradY, hnear, sub_self]
  have hS : s.gradSquared y x = 0 := by rw [State.gradSquared, hX, hY]; rfl
  rw [magnitude_eq, hS, Nat.zero_mul, isqrt_zero]

/-- The range of a flat image is the one magnitude 0. -/
theorem magnitudeRange_of_flat {s : State} {v : Byte} (h : ∀ y x, s.hasPixel y x → s.gray y x = v)
    {y x : Nat} (hp : s.hasPixel y x) : s.MagnitudeRange 0 0 where
  lower _ _ _ := Nat.zero_le _
  upper _ _ hp := (magnitude_of_flat h hp).le
  lowerTaken := ⟨y, x, hp, magnitude_of_flat h hp⟩
  upperTaken := ⟨y, x, hp, magnitude_of_flat h hp⟩

/-- Settles O49 from the value that O19 gives: with D = MMAX − MMIN it is D / 2D at MMIN and 511·D / 2D at
MMAX; a flat image has MMIN = MMAX. -/
theorem sobelSpansTheFullRangeUnlessFlat : Obligations.SobelSpansTheFullRangeUnlessFlat := by
  intro p s t h hexec
  obtain ⟨t', hexec', -, hstored, -⟩ := sobelStoresTheNormalisedMagnitude p s h
  obtain rfl : t = t' := Host.Outcome.next.inj (hexec.symm.trans hexec')
  refine ⟨fun mmin mmax hr hlt y x c hp hc => ?_, fun v hv y x c hp hc => ?_⟩
  · have hvalue := hstored mmin mmax hr y x c hp hc
    rw [if_neg hlt.ne'] at hvalue
    refine ⟨fun hm => BitVec.eq_of_toNat_eq (hvalue.trans ?_),
      fun hm => BitVec.eq_of_toNat_eq (hvalue.trans ?_)⟩
    · rw [hm]
      exact Nat.div_eq_of_lt (by omega)
    · rw [hm]
      change _ = 255
      exact Nat.div_eq_of_lt_le (by omega) (by omega)
  · exact BitVec.eq_of_toNat_eq (hstored 0 0 (magnitudeRange_of_flat hv hp) y x c hp hc)

end Sys2Proof.Machine
end

section
/-! Validation, the errors of a launch, and how a command ends (60_exceptions.md R161 to R176): which
check fails first, what a refused launch records, when STATUS.STATE moves, and that BUSY is left. -/

namespace Sys2Proof.Machine

/-! ### Validation -/

/-- R161 check 2 fails: the command has a required parameter and PARAM is outside its domain (R64,
R65). -/
def ParameterIllegal (id param : Half) : Prop :=
  (id = 0x0003 ∧ sext16 param ≤ 0) ∨ (id = 0x0006 ∧ param.toNat ∉ legalKernelSizes)

/-- Only two commands have a required parameter, and the block implements both. -/
theorem validate_illegalParameter {cap : Nat} {l : Latch}
    (hparam : ParameterIllegal l.id l.param) : validate cap l = some .invalidParameter := by
  obtain ⟨hgamma, hg⟩ | ⟨hgblur, hk⟩ := hparam
  · simp [validate, implementedIds, hgamma, hg]
  · simp [validate, implementedIds, hgblur, hk]

/-- A known command with a legal parameter is left to the buffer check. -/
theorem validate_wordLegal {cap : Nat} {l : Latch} (hid : l.id ∈ implementedIds)
    (hparam : ¬ ParameterIllegal l.id l.param) :
    validate cap l = if bufferLegal cap l then none else some .invalidBuffer := by
  obtain ⟨hgamma, hkernel⟩ := not_or.mp hparam
  have hkernel' : ¬ (l.id = 0x0006 ∧ (!legalKernelSizes.contains l.param.toNat) = true) := by
    simpa using hkernel
  have hknown : ¬ (!implementedIds.contains l.id) = true := by simpa using hid
  rw [validate, if_neg hknown, if_neg hgamma, if_neg hkernel']
  cases bufferLegal cap l <;> rfl

/-- The four outcomes of validation, in the order of its checks. -/
theorem validate_cases (cap : Nat) (l : Latch) :
    (l.id ∉ implementedIds ∧ validate cap l = some .unknownFilter) ∨
    (l.id ∈ implementedIds ∧ ParameterIllegal l.id l.param ∧
      validate cap l = some .invalidParameter) ∨
    (l.id ∈ implementedIds ∧ ¬ ParameterIllegal l.id l.param ∧ bufferLegal cap l = false ∧
      validate cap l = some .invalidBuffer) ∨
    (l.id ∈ implementedIds ∧ ¬ ParameterIllegal l.id l.param ∧ bufferLegal cap l = true ∧
      validate cap l = none) := by
  by_cases hid : l.id ∈ implementedIds
  · by_cases hparam : ParameterIllegal l.id l.param
    · exact .inr (.inl ⟨hid, hparam, validate_illegalParameter hparam⟩)
    · have hv := validate_wordLegal (cap := cap) hid hparam
      cases hb : bufferLegal cap l with
      | false => exact .inr (.inr (.inl ⟨hid, hparam, rfl, hv.trans (by rw [hb]; rfl)⟩))
      | true => exact .inr (.inr (.inr ⟨hid, hparam, rfl, hv.trans (by rw [hb]; rfl)⟩))
  · exact .inl ⟨hid, validate_unknown hid⟩

theorem mem_implementedIds_iff (id : Half) : id ∈ implementedIds ↔
    (id = 0x0001 ∨ id = 0x0003 ∨ id = 0x0006 ∨ id = 0x000A ∨ id = 0x0010 ∨ id = 0x0011) := by
  simp only [implementedIds, List.mem_cons, List.not_mem_nil, or_false]

/-- Check 2 in the words of R64 and R65. -/
theorem parameterIllegal_iff (id param : Half) : ParameterIllegal id param ↔
    (id = 0x0003 ∧ (param = 0 ∨ 0x8000 ≤ param)) ∨
    (id = 0x0006 ∧ ¬ (3 ≤ param.toNat ∧ param.toNat ≤ 21 ∧ param.toNat % 2 = 1)) := by
  rw [ParameterIllegal, gammaIllegal_iff, ← kernelLegal_iff, List.contains_iff_mem]

/-- Settles O12: the four outcomes exclude each other, and each check is its clause. -/
theorem validationReportsTheFirstFailure : Obligations.ValidationReportsTheFirstFailure := by
  intro cap l known badGamma badKernel badBuffer
  have hknown : l.id ∈ implementedIds ↔ known := mem_implementedIds_iff l.id
  have hparam : ParameterIllegal l.id l.param ↔ badGamma ∨ badKernel := parameterIllegal_iff _ _
  have hbuffer : bufferLegal cap l = false ↔ badBuffer := bufferLegal_eq_false_iff cap l
  have hlegal : bufferLegal cap l = true ↔ ¬ badBuffer := by rw [← hbuffer, Bool.not_eq_false]
  have hcases := validate_cases cap l
  rw [hknown, hparam, hbuffer, hlegal] at hcases
  clear_value known badGamma badKernel badBuffer
  obtain ⟨hid, hv⟩ | ⟨hid, hp, hv⟩ | ⟨hid, hp, hb, hv⟩ | ⟨hid, hp, hb, hv⟩ := hcases
  · simp [hv, hid]
  · have hnot : ¬ (¬ badGamma ∧ ¬ badKernel) := fun h => hp.elim h.1 h.2
    simp [hv, hid, hp, ← and_assoc, hnot]
  · obtain ⟨hgamma, hkernel⟩ := not_or.mp hp
    simp [hv, hid, hgamma, hkernel, hb]
  · obtain ⟨hgamma, hkernel⟩ := not_or.mp hp
    simp [hv, hid, hgamma, hkernel, hb]

/-! ### Commands -/

theorem implemented_iff (i : Instr) : i.implemented = true ↔ i.id ∈ implementedIds := by
  cases i <;> simp [Instr.implemented, Instr.id, implementedIds]

theorem paramLegal_iff (i : Instr) : i.paramLegal = true ↔ ¬ ParameterIllegal i.id i.param := by
  cases i with
  | gamma g =>
    simp [ParameterIllegal, Instr.paramLegal, Instr.gammaLegal, Instr.id, Instr.param, sext16]
  | gblur k =>
    have hsizes : Instr.kernelSizes = legalKernelSizes := rfl
    simp [ParameterIllegal, Instr.paramLegal, Instr.kernelLegal, hsizes, Instr.id, Instr.param]
  | _ => simp [ParameterIllegal, Instr.paramLegal, Instr.id]

/-- Settles O13: the launch latches the command's own identifier and parameter. -/
theorem wellFormedCommandsPassTheWordChecks : Obligations.WellFormedCommandsPassTheWordChecks := by
  intro i s
  rw [Instr.wellFormed, Bool.and_eq_true, implemented_iff, paramLegal_iff]
  obtain ⟨hid, hv⟩ | ⟨_, hparam, hv⟩ | ⟨hid, hparam, _, hv⟩ | ⟨hid, hparam, _, hv⟩ :=
    validate_cases s.cap (latchedBy i s) <;> rw [hv]
  · exact iff_of_false (fun h => hid h.1) (by simp)
  · exact iff_of_false (fun h => h.2 hparam) (by simp)
  · exact iff_of_true ⟨hid, hparam⟩ (.inr rfl)
  · exact iff_of_true ⟨hid, hparam⟩ (.inl rfl)

/-! ### The refused launch -/

/-- A CMD write that validation refuses, while not BUSY (R165). -/
theorem commandWrite_recordsRefusal {w : Word} {s : State} {e : ErrorKind} (hbusy : s.busy = false)
    (h : validate s.cap (latchOf w s) = some e) :
    RecordsRefusal w (latchOf w s) e s (commandWrite w s) := by
  rw [commandWrite_of_not_busy w hbusy]
  exact launch_recordsRefusal h

theorem latchOf_append (p id : Half) (s : State) : latchOf (p ++ id) s =
    { id := id, param := p, w := s.imgDim.extractLsb' 0 16, h := s.imgDim.extractLsb' 16 16,
      c := s.imgFmt.extractLsb' 0 2 } := by
  have hid : idField (p ++ id) = id := idField_commandWord p id
  have hparam : paramField (p ++ id) = p := paramField_commandWord p id
  rw [latchOf, hid, hparam]
  rfl

/-- Settles O8: a command on the host's move and a CMD write as a step are both `commandWrite`. -/
theorem refusedLaunchRecordsOnlyItsCode : Obligations.RefusedLaunchRecordsOnlyItsCode := by
  refine ⟨fun i s e hturn hbusy hv => ⟨_, exec_of_host i hturn, ?_⟩,
    fun s rest p id e => fun hs hbusy hv => ⟨_, step_of_commandWrite hs, ?_⟩⟩
  · rw [← latchOf_encode] at hv ⊢
    exact commandWrite_recordsRefusal hbusy hv
  · have hl := latchOf_append p id { s with schedule := rest, turn := .host }
    rw [← hl] at hv ⊢
    exact commandWrite_recordsRefusal (s := { s with schedule := rest, turn := .host }) hbusy hv

/-! ### The moves of STATUS.STATE -/

theorem completionOf_turn (i : Instr) (s : State) : (completionOf i s).turn = s.turn := by
  obtain ⟨c, f, h⟩ | ⟨c, f, table, h⟩ | ⟨_, h⟩ := completionOf_cases i s <;> rw [h] <;> rfl

/-- Where a launch leaves STATE, as validation says (R169, R170). -/
theorem phase_launch_of_validate (w : Word) (s : State) :
    (validate s.cap (latchOf w s) = none ∧ (launch w s).phase = stateBusy) ∨
    (validate s.cap (latchOf w s) ≠ none ∧ (launch w s).phase = stateError) := by
  obtain ⟨hv, h⟩ | ⟨e, hv, h⟩ := launch_cases w s
  · exact .inl ⟨hv, by rw [h, State.phase, acceptLaunch_status, stateField_setStateField]⟩
  · exact .inr ⟨by rw [hv]; nofun, (launch_recordsRefusal hv).error⟩

/-- Settles O24: of the moves only a launch, a completion and reset write STATUS. -/
theorem statusStateMovesOnlyAsTabulated : Obligations.StatusStateMovesOnlyAsTabulated := by
  intro s t hstep
  cases move_of_step hstep with
  | wroteSrc rest a v _ inside =>
    rw [writeSrc_of_lt (s := { s with schedule := rest, turn := .host }) v inside]
    exact .inl rfl
  | launched rest w sched notBusy =>
    exact .inr (.inl ⟨(busy_eq_false_iff s).mp notBusy, w, rest, sched,
      phase_launch_of_validate w { s with schedule := rest, turn := .host }⟩)
  | completed schedule i busy _ =>
    obtain ⟨hdone, _⟩ | h :=
      completionOf_results i { s with schedule := schedule, turn := .engine }
    · exact .inr (.inr (.inl ⟨(busy_eq_true_iff s).mp busy, hdone, completionOf_turn i _⟩))
    · rw [h]
      exact .inl rfl
  | wasReset rest sched => exact .inr (.inr (.inr ⟨rfl, rest, sched⟩))
  | _ => exact .inl rfl

/-! ### The engine's move -/

theorem engineMove_at_rest {s : State} (h : s.phase ≠ stateBusy) :
    engineMove s = .next { s with turn := .engine } := by
  rw [engineMove, (busy_eq_false_iff s).mpr h]
  rfl

/-- Settles O53: an `engine` event and an empty schedule leave the move to the engine. -/
theorem engineAtRestChangesNothing : Obligations.EngineAtRestChangesNothing := fun s h =>
  ⟨fun rest hs => (step_of_engineEvent hs).trans
      (engineMove_at_rest (s := { s with schedule := rest }) h),
    fun hs => (step_of_nothingScheduled hs).trans (engineMove_at_rest h)⟩

/-- From a legal state the engine's move ends the running command: its latch passed validation. -/
theorem engineMove_ends {s : State} (h : s.Inv) (hb : s.busy = true) :
    ∃ t, engineMove s = .next t ∧ t.busy = false := by
  have hV := validated_of_none (h.command.busyIsValidated hb)
  obtain ⟨i, hl⟩ := exists_latched hV
  exact ⟨_, engineMove_completes hb hl,
    not_busy_of_done (completionOf_done (implemented_of_validated hV hl))⟩

/-! ### The host's moves -/

theorem commandWrite_schedule (w : Word) (s : State) :
    (commandWrite w s).schedule = s.schedule := by
  cases hb : s.busy with
  | false => rw [commandWrite_of_not_busy w hb]; exact (launch_frame w s).outside.schedule
  | true => rw [commandWrite_of_busy w hb]

theorem readReg_schedule (offset : Nat) (s : State) : (readReg offset s).schedule = s.schedule := by
  obtain ⟨v, h⟩ | h := readReg_cases offset s <;> rw [h] <;> rfl

theorem writeReg_answers {s : State} (h : s.turn = .host) (offset : Nat) (v : Word) :
    ∃ t, writeReg offset v s = .next t ∧ t.schedule = s.schedule := by
  unfold writeReg
  cases regAt offset with
  | none => exact ⟨s, rfl, rfl⟩
  | some r =>
    cases r with
    | cmd => exact ⟨_, runCommandWord_eq v h, commandWrite_schedule v s⟩
    | imgDim => exact ⟨_, rfl, rfl⟩
    | imgFmt => exact ⟨_, rfl, rfl⟩
    | status => exact ⟨s, rfl, rfl⟩
    | outFmt => exact ⟨s, rfl, rfl⟩

/-- A host access that is no narrow register access is answered, and leaves the rest of the schedule. -/
theorem hostAccess_answers {a : HostAccess} {s : State} (ha : (Event.access a).wholeWord = true)
    (h : s.turn = .host) : ∃ t, hostAccess a s = .next t ∧ t.schedule = s.schedule := by
  cases a with
  | writeReg offset v =>
    obtain ⟨t, ht, hs⟩ := writeReg_answers h offset v
    exact ⟨t, (if_pos ha).trans ht, hs⟩
  | readReg offset => exact ⟨_, if_pos ha, readReg_schedule offset s⟩
  | narrowWrite _ _ _ => cases ha
  | narrowRead _ _ => cases ha
  | writeSrc a v => exact ⟨_, rfl, by unfold writeSrc; split <;> rfl⟩
  | readSrc a => exact ⟨_, rfl, by unfold readSrc; split <;> rfl⟩
  | writeDst _ _ => exact ⟨s, rfl, rfl⟩
  | readDst a => exact ⟨_, rfl, by unfold readDst; split <;> rfl⟩
  | writeLut _ _ => exact ⟨s, rfl, rfl⟩
  | readLut i => exact ⟨_, rfl, by unfold readLut; split <;> rfl⟩

theorem step_of_reset {s : State} {rest : List Event} (hs : s.schedule = .reset :: rest) :
    step s = .next (assertReset { s with schedule := rest, turn := .host }) := by
  simp only [step, nextMove, runEvent, hs]

/-! ### A running command ends -/

/-- A schedule without a move the model refuses (log 10). -/
def WholeWords (schedule : List Event) : Prop := ∀ e ∈ schedule, e.wholeWord = true

/-- While a command runs, each step ends it or brings the schedule nearer to its end. -/
theorem busy_step {s : State} (h : s.Inv) (hb : s.busy = true) (hw : WholeWords s.schedule) :
    ∃ t, step s = .next t ∧ (t.busy = false ∨
      (WholeWords t.schedule ∧ scheduleSteps t.schedule < scheduleSteps s.schedule)) := by
  cases hs : s.schedule with
  | nil =>
    obtain ⟨t, ht, hend⟩ := engineMove_ends h hb
    exact ⟨t, (step_of_nothingScheduled hs).trans ht, .inl hend⟩
  | cons e rest =>
    rw [hs, WholeWords, List.forall_mem_cons] at hw
    obtain ⟨he, hrest⟩ := hw
    cases e with
    | access a =>
      obtain ⟨t, ht, hsched⟩ :=
        hostAccess_answers (s := { s with schedule := rest, turn := .host }) he rfl
      refine ⟨t, (step_of_access hs).trans ht, .inr ?_⟩
      rw [hsched]
      exact ⟨hrest, Nat.lt_add_of_pos_left Nat.one_pos⟩
    | wait polls =>
      cases polls with
      | zero =>
        obtain ⟨t, ht, hend⟩ := engineMove_ends h hb
        exact ⟨t, (step_of_wait_engine hs hb).trans ht, .inl hend⟩
      | succ n =>
        refine ⟨_, step_of_wait_poll hs hb, .inr ⟨?_, ?_⟩⟩
        · exact List.forall_mem_cons.mpr ⟨rfl, hrest⟩
        · simp only [reply_schedule, scheduleSteps]
          omega
    | engine =>
      obtain ⟨t, ht, hend⟩ := engineMove_ends (inv_of_rescheduled h rest s.turn) hb
      exact ⟨t, (step_of_engineEvent hs).trans ht, .inl hend⟩
    | reset => exact ⟨_, step_of_reset hs, .inl rfl⟩

/-- A running command ends, by induction on the steps the schedule can take. -/
theorem busy_ends {s : State} (h : s.Inv) (hb : s.busy = true) (hw : WholeWords s.schedule) :
    ∃ n t, n ≤ scheduleSteps s.schedule + 1 ∧ Steps n s t ∧ t.busy = false := by
  obtain ⟨t, hstep, hend | ⟨hw', hlt⟩⟩ := busy_step h hb hw
  · exact ⟨1, t, by omega, .one hstep, hend⟩
  · cases hb' : t.busy with
    | false => exact ⟨1, t, by omega, .one hstep, hb'⟩
    | true =>
      obtain ⟨n, u, hn, hsteps, hend⟩ := busy_ends (everyStepKeepsTheInvariant s t h hstep) hb' hw'
      exact ⟨n + 1, u, by omega, .more hstep hsteps, hend⟩
termination_by scheduleSteps s.schedule

/-- Settles O27: each step shortens the schedule until the engine moves. -/
theorem runningCommandEnds : Obligations.RunningCommandEnds :=
  fun _ h hb hw => busy_ends h hb hw

end Sys2Proof.Machine
end

section
/-! Reset, and the two hazards of a running command (60_exceptions.md R190, R191, R196, R198): what a reset
draws afresh, what a write of the input while it is read spoils and what it does not, and that a CMD write
while BUSY is dropped. -/

namespace Sys2Proof.Machine

/-! ### Reset -/

/-- Settles O5: the step asserts reset, and an empty store reads as the draw of that reset. -/
theorem resetAbortsAndDrawsAfresh : Obligations.ResetAbortsAndDrawsAfresh := fun _ _ hs =>
  ⟨_, step_of_reset hs, rfl, rfl, rfl, rfl, rfl, rfl, rfl, fun _ => rfl, fun _ => rfl, fun _ => rfl,
    rfl, rfl, rfl, rfl, rfl⟩

/-! ### A disturbed command -/

/-- How every disturbed command ends, whatever its result would have been (R196): its output is free values
of one draw, and only that is spoilt. -/
structure EndsDisturbed (cOut : Nat) (s t : State) : Prop where
  stored : ∀ y x c, s.hasPixel y x → c < cOut →
    t.dstAt (idx s.width cOut y x c) = Config.hazardSample .dst s.draws (idx s.width cOut y x c)
  delivered : Delivered cOut t
  frame : CompletionFrame cOut s t
  drawn : t.draws = s.draws + 1
  cleared : t.srcHazard = false

theorem deliver_endsDisturbed (cOut : BitVec 2) (f : Nat → Nat → Nat → Byte) {s : State}
    (h : s.srcHazard = true) : EndsDisturbed cOut.toNat s (deliver cOut f s) where
  stored := fun _ _ _ hp hc => (deliver_dstAt cOut f hp hc).trans (settled_of_disturbed h _ _ _)
  delivered := deliver_delivered cOut f s
  frame := deliver_frame cOut f s
  drawn := by rw [deliver_draws, if_pos h]
  cleared := deliver_srcHazard cOut f s

/-- A published table makes no difference to that. -/
theorem publish_deliver_endsDisturbed (cOut : BitVec 2) (f : Nat → Nat → Nat → Byte)
    (table : Nat → Byte) {s : State} (h : s.srcHazard = true) :
    EndsDisturbed cOut.toNat s (deliver cOut f (publishTable table s)) :=
  have hdeliver := deliver_endsDisturbed cOut f (s := publishTable table s) h
  { stored := hdeliver.stored
    delivered := hdeliver.delivered
    frame := publish_deliver_frame cOut f table s
    drawn := hdeliver.drawn
    cleared := hdeliver.cleared }

theorem completionOf_endsDisturbed {i : Instr} {s : State} (hi : i.implemented = true)
    (h : s.srcHazard = true) : EndsDisturbed (outChans i s) s (completionOf i s) := by
  cases i with
  | togray => exact deliver_endsDisturbed 1 _ h
  | gray2color => exact deliver_endsDisturbed 3 _ h
  | gblur => exact deliver_endsDisturbed s.latch.c _ h
  | sobel => exact deliver_endsDisturbed s.latch.c _ h
  | histeq => exact publish_deliver_endsDisturbed s.latch.c _ _ h
  | gamma => exact publish_deliver_endsDisturbed s.latch.c _ _ h
  | _ => cases hi

/-! ### The table of a completion, disturbed or not -/

/-- HISTEQ and GAMMA publish a table before they deliver. -/
theorem completionOf_publishes {i : Instr} (s : State)
    (ht : (∃ p, i = .histeq p) ∨ ∃ g, i = .gamma g) :
    ∃ f table, completionOf i s = deliver s.latch.c f (publishTable table s) := by
  rcases ht with ⟨_, rfl⟩ | ⟨_, rfl⟩
  · exact ⟨_, _, rfl⟩
  · exact ⟨_, _, rfl⟩

/-- The other commands leave the table and its valid bit alone (R18). -/
theorem completionOf_tableFrame {i : Instr} (s : State) (hh : ∀ p, i ≠ .histeq p)
    (hg : ∀ g, i ≠ .gamma g) : TableFrame s (completionOf i s) := by
  cases i with
  | histeq p => exact absurd rfl (hh p)
  | gamma g => exact absurd rfl (hg g)
  | togray => exact deliver_tableFrame _ _ s
  | gray2color => exact deliver_tableFrame _ _ s
  | gblur => exact deliver_tableFrame _ _ s
  | sobel => exact deliver_tableFrame _ _ s
  | _ => exact ⟨fun _ => rfl, fun _ _ => rfl⟩

/-- HISTEQ's table is computed from the disturbed input, so it is free values too. -/
theorem lutAt_completeHisteq_of_disturbed {s : State} (h : s.srcHazard = true) {j : Nat}
    (hj : j < 256) : (completeHisteq s).lutAt j = Config.hazardSample .lut s.draws j := by
  unfold completeHisteq expand
  rw [publish_deliver_lutAt, if_pos hj, settled_of_disturbed h]

/-- Settles O20: all commands end alike (`completionOf_endsDisturbed`); of the two tables only HISTEQ's
depends on the input. -/
theorem disturbedCommandCompletesWithAnyOutput :
    Obligations.DisturbedCommandCompletesWithAnyOutput := by
  intro i s hi hcompleting hdisturbed
  have hends := completionOf_endsDisturbed hi hdisturbed
  refine ⟨completionOf i s, exec_of_completing hcompleting, hends.stored, ?_, ?_, fun ht => ?_,
    completionOf_tableFrame s, hends.delivered, hends.frame, hends.drawn, hends.cleared⟩
  · rintro p rfl j hj
    exact lutAt_completeHisteq_of_disturbed hdisturbed hj
  · rintro g rfl hg j hj
    have hentry : (completionOf (.gamma g) s).lutAt j = gammaEntry j g.toNat :=
      lutAt_of_completing_gamma hcompleting hg hj
    rw [hentry]
    exact ⟨gammaEntry_reaches j g.toNat, fun m => not_gammaReaches_above⟩
  · obtain ⟨f, table, h⟩ := completionOf_publishes s ht
    obtain ⟨hvalid, hother⟩ := publish_deliver_outFmt s.latch.c f table s
    rw [h]
    exact ⟨hvalid, fun j hj =>
      (publish_deliver_lutAt s.latch.c f table s j).trans (if_neg (Nat.not_lt.mpr hj)), hother⟩

/-! ### A CMD write while BUSY -/

/-- Settles O11: a command on the host's move and a CMD write as a step are both `commandWrite`, which a
running command drops. -/
theorem commandWriteWhileBusyIsDropped : Obligations.CommandWriteWhileBusyIsDropped := by
  refine ⟨fun i s hturn hbusy => ?_, fun s rest w hs hbusy => ?_⟩
  · rw [exec_of_host i hturn, commandWrite_of_busy _ hbusy]
  · rw [step_of_commandWrite hs,
      commandWrite_of_busy (s := { s with schedule := rest, turn := .host }) w hbusy]

end Sys2Proof.Machine
end
